-- ==== Sys2Proof/Word.lean ====
section
/-! DEFINITION. The word types of the harness and the value types of the CORE block (spec/00_scope.md R8, R9, R12;
spec/10_state.md R20, R27). The value types are structures of their own, because R12 says that they are distinct and
that no rule silently converts one to another. -/

namespace Sys2Proof

/-- A 32-bit slot word (R9, R27). -/
abbrev Word := BitVec 32

/-- A 64-bit command word (R9, R52). -/
abbrev CmdWord := BitVec 64

/-- A byte: used only where a register value is serialised outside the block (R42). -/
abbrev Byte := BitVec 8

/-- The index of one of the 16 slots x0..x15 (R9, R30). -/
abbrev SlotIdx := Fin 16

/-- `Reg`: a 32-bit arbitration register value; any of the 2^32 patterns is one (R12, R20). -/
structure Reg where
  bits : BitVec 32
  deriving DecidableEq, Repr

/-- `StdId`: an integer in 0..=0x7FF (R12, R14). -/
structure StdId where
  bits : BitVec 11
  deriving DecidableEq, Repr

/-- `ExtId`: an integer in 0..=0x1FFFFFFF (R12, R14). -/
structure ExtId where
  bits : BitVec 29
  deriving DecidableEq, Repr

/-- Raw ID bits in register position, bits 28..0 of a register value (R55, R74, R95). -/
structure RawId where
  bits : BitVec 29
  deriving DecidableEq, Repr

/-- `Id`: the tagged union of R12. -/
inductive Id where
  | standard (s : StdId)
  | extended (e : ExtId)
  deriving DecidableEq, Repr

/-- `IdType`: the tag Standard or Extended (R12). -/
inductive IdType where
  | standard
  | extended
  deriving DecidableEq, Repr

/-- `FrameKind`: the tag Data or Remote (R12, R15). -/
inductive FrameKind where
  | data
  | remote
  deriving DecidableEq, Repr

/-- The type tag of an identifier (R12; the second corner case of R96 speaks of it). -/
def Id.type : Id → IdType
  | .standard _ => .standard
  | .extended _ => .extended

end Sys2Proof
end

