-- ==== Sys2Proof/Config.lean ====
section
/-! DEFINITION. The fixed parameters of the CORE block (spec/00_scope.md R8) and its one open parameter,
REG_BYTE_ORDER (spec/20_memory.md R42; spec/92_eei_decisions.md D17). -/

namespace Sys2Proof

/-- The order in which the bytes of a serialised register value are laid out: the values REG_BYTE_ORDER may take. -/
inductive ByteOrder where
  | little
  | big
  deriving DecidableEq, Repr, Inhabited

namespace Config

/-- STD_SHIFT of R8: the place of a standard ID. -/
def stdShift : Nat := 18

/-- BASE_SHIFT of R8: the place of the base ID in an extended ID. -/
def baseShift : Nat := 18

/-- RTR_BIT of R8. -/
def rtrBit : Nat := 29

/-- XTD_BIT of R8. -/
def xtdBit : Nat := 30

/-- STD_MASK of R8: bits 28..18. -/
def stdMask : BitVec 32 := 0x1FFC0000#32

/-- EXT_MASK of R8: bits 28..0. -/
def extMask : BitVec 32 := 0x1FFFFFFF#32

/-- RTR_MASK of R8. -/
def rtrMask : BitVec 32 := 0x20000000#32

/-- XTD_MASK of R8. -/
def xtdMask : BitVec 32 := 0x40000000#32

/-- The largest StdId of R8. -/
def stdMax : BitVec 32 := 0x7FF#32

/-- The largest ExtId and the largest raw operand of R8, R75. -/
def extMax : BitVec 32 := 0x1FFFFFFF#32

/-- REG_BYTE_ORDER, which the spec leaves OPEN (R42, D17, U11): a constant with no value that a proof could see.
DESIGN CHOICE: notes/assumptions/10.md (safe). No CORE rule reads it. -/
opaque regByteOrder : ByteOrder

end Config

end Sys2Proof
end

