-- ==== Sys2Proof/Syntax.lean ====
section
/-! DEFINITION. The thirteen commands of the harness (spec/30_encoding.md R56; spec/opcode_table.json), one constructor
per row, operands in the order rd, rs1, rs2, rs3 of R55 and R59. -/

namespace Sys2Proof

/-- A command. An operand is a slot index 0..15 or LI's 32-bit literal, so every term is a command the encoding admits
(notes/assumptions/8.md): what can be ill-formed is a command WORD, and WellFormed.lean checks that. -/
inductive Instr where
  /-- `li rd, imm` (R130) -/
  | li (rd : SlotIdx) (imm : Word)
  /-- `id.new_std rd, rs1` (R70) -/
  | newStd (rd rs1 : SlotIdx)
  /-- `id.new_ext rd, rs1` (R72) -/
  | newExt (rd rs1 : SlotIdx)
  /-- `id.from_reg rd, rs1, rs2, rs3` (R74) -/
  | fromReg (rd rs1 rs2 rs3 : SlotIdx)
  /-- `id.with_rtr rd, rs1, rs2` (R76) -/
  | withRtr (rd rs1 rs2 : SlotIdx)
  /-- `id.to_id rd, rs1` (R90) -/
  | toId (rd rs1 : SlotIdx)
  /-- `id.is_ext rd, rs1` (R92) -/
  | isExt (rd rs1 : SlotIdx)
  /-- `id.is_std rd, rs1` (R93) -/
  | isStd (rd rs1 : SlotIdx)
  /-- `id.is_rtr rd, rs1` (R94) -/
  | isRtr (rd rs1 : SlotIdx)
  /-- `id.raw_id rd, rs1` (R95) -/
  | rawId (rd rs1 : SlotIdx)
  /-- `id.id_type rd, rs1` (R96) -/
  | idType (rd rs1 : SlotIdx)
  /-- `id.frame_kind rd, rs1` (R97) -/
  | frameKind (rd rs1 : SlotIdx)
  /-- `id.cmp rd, rs1, rs2` (R110) -/
  | cmp (rd rs1 rs2 : SlotIdx)
  deriving DecidableEq, Repr

end Sys2Proof
end

