-- ==== Sys2Proof/WellFormed.lean ====
section
/-! DEFINITION. The fields of a command word, the four formats, and the check that every field a format does not use is
zero (spec/30_encoding.md R52, R53, R57 step 2, R58). -/

namespace Sys2Proof

/-- The seven fields of a command word (R52). -/
structure Fields where
  opcode : BitVec 8
  rd : BitVec 4
  rs1 : BitVec 4
  rs2 : BitVec 4
  rs3 : BitVec 4
  res : BitVec 8
  imm : BitVec 32
  deriving DecidableEq, Repr

/-- The four formats (R53). -/
inductive Format where
  | L
  | U
  | B
  | T
  deriving DecidableEq, Repr

/-- The fields that some format requires to be zero (R53). -/
inductive UnusedField where
  | rs1
  | rs2
  | rs3
  | res
  | imm
  deriving DecidableEq, Repr

/-- Why a command word is illegal (R57): its opcode is unassigned, or a field that its format does not use is not zero.
Both raise F_ILLEGAL_COMMAND when executed. -/
inductive Illegal where
  | unassignedOpcode (opcode : BitVec 8)
  | nonZeroField (field : UnusedField)
  deriving DecidableEq, Repr

/-- The fields a format must find zero: the "must be 0" column of R53. -/
def Format.mustBeZero : Format → List UnusedField
  | .L => [.rs1, .rs2, .rs3, .res]
  | .U => [.rs2, .rs3, .res, .imm]
  | .B => [.rs3, .res, .imm]
  | .T => [.res, .imm]

/-- Whether one field of a command word is zero. -/
def Fields.isZero (f : Fields) : UnusedField → Bool
  | .rs1 => f.rs1 == 0
  | .rs2 => f.rs2 == 0
  | .rs3 => f.rs3 == 0
  | .res => f.res == 0
  | .imm => f.imm == 0

/-- The first field that the format requires to be zero and that is not, if any (R57 step 2). -/
def Fields.badField (f : Fields) (fmt : Format) : Option UnusedField :=
  fmt.mustBeZero.find? fun u => !f.isZero u

/-- The fields are well-formed for the format: every field it does not use is zero (R53). -/
def Fields.wellFormed (f : Fields) (fmt : Format) : Bool :=
  fmt.mustBeZero.all f.isZero

end Sys2Proof
end

