-- ==== Sys2Proof/Decode.lean ====
section
/-! DEFINITION. The decoder, total on all 2^64 command words (spec/30_encoding.md R52, R54, R56, R57, R58), and after it
the encoder, written from the same tables (R52, R53, R56). -/

namespace Sys2Proof

/-- The fields of a command word, at the bit positions of R52. -/
def Fields.ofWord (w : CmdWord) : Fields where
  opcode := w.extractLsb' 56 8
  rd := w.extractLsb' 52 4
  rs1 := w.extractLsb' 48 4
  rs2 := w.extractLsb' 44 4
  rs3 := w.extractLsb' 40 4
  res := w.extractLsb' 32 8
  imm := w.extractLsb' 0 32

/-- A slot field names slot x[field] directly (R54). -/
def slotOfField (b : BitVec 4) : SlotIdx := b.toFin

/-- Step 2 and step 3 of R57: the command, if every field its format does not use is zero. -/
def Fields.require (f : Fields) (fmt : Format) (i : Instr) : Except Illegal Instr :=
  match f.badField fmt with
  | none => .ok i
  | some u => .error (.nonZeroField u)

/-- R57 on the fields of a word: the opcode map of R56, then the check of the format's unused fields. -/
def decodeFields (f : Fields) : Except Illegal Instr :=
  match f.opcode with
  | 0x01#8 => f.require .L (.li (slotOfField f.rd) f.imm)
  | 0x10#8 => f.require .U (.newStd (slotOfField f.rd) (slotOfField f.rs1))
  | 0x11#8 => f.require .U (.newExt (slotOfField f.rd) (slotOfField f.rs1))
  | 0x12#8 =>
    f.require .T (.fromReg (slotOfField f.rd) (slotOfField f.rs1) (slotOfField f.rs2) (slotOfField f.rs3))
  | 0x13#8 => f.require .B (.withRtr (slotOfField f.rd) (slotOfField f.rs1) (slotOfField f.rs2))
  | 0x20#8 => f.require .U (.toId (slotOfField f.rd) (slotOfField f.rs1))
  | 0x21#8 => f.require .U (.isExt (slotOfField f.rd) (slotOfField f.rs1))
  | 0x22#8 => f.require .U (.isStd (slotOfField f.rd) (slotOfField f.rs1))
  | 0x23#8 => f.require .U (.isRtr (slotOfField f.rd) (slotOfField f.rs1))
  | 0x24#8 => f.require .U (.rawId (slotOfField f.rd) (slotOfField f.rs1))
  | 0x25#8 => f.require .U (.idType (slotOfField f.rd) (slotOfField f.rs1))
  | 0x26#8 => f.require .U (.frameKind (slotOfField f.rd) (slotOfField f.rs1))
  | 0x30#8 => f.require .B (.cmp (slotOfField f.rd) (slotOfField f.rs1) (slotOfField f.rs2))
  | op => .error (.unassignedOpcode op)

/-- `decode(w)` of R57: the command a word stands for, or why it is illegal. -/
def decode (w : CmdWord) : Except Illegal Instr := decodeFields (Fields.ofWord w)

/-- A command word from its fields, the most significant field first (R52). -/
def Fields.toWord (f : Fields) : CmdWord :=
  f.opcode ++ f.rd ++ f.rs1 ++ f.rs2 ++ f.rs3 ++ f.res ++ f.imm

/-- The field that names a slot (R54). -/
def fieldOfSlot (n : SlotIdx) : BitVec 4 := BitVec.ofFin n

/-- The opcode of a command (R56). -/
def Instr.opcode : Instr → BitVec 8
  | .li _ _ => 0x01#8
  | .newStd _ _ => 0x10#8
  | .newExt _ _ => 0x11#8
  | .fromReg _ _ _ _ => 0x12#8
  | .withRtr _ _ _ => 0x13#8
  | .toId _ _ => 0x20#8
  | .isExt _ _ => 0x21#8
  | .isStd _ _ => 0x22#8
  | .isRtr _ _ => 0x23#8
  | .rawId _ _ => 0x24#8
  | .idType _ _ => 0x25#8
  | .frameKind _ _ => 0x26#8
  | .cmp _ _ _ => 0x30#8

/-- The format of a command (R56). -/
def Instr.format : Instr → Format
  | .li _ _ => .L
  | .newStd _ _ => .U
  | .newExt _ _ => .U
  | .fromReg _ _ _ _ => .T
  | .withRtr _ _ _ => .B
  | .toId _ _ => .U
  | .isExt _ _ => .U
  | .isStd _ _ => .U
  | .isRtr _ _ => .U
  | .rawId _ _ => .U
  | .idType _ _ => .U
  | .frameKind _ _ => .U
  | .cmp _ _ _ => .B

/-- Format L (R53): opcode, rd and imm, all else zero. -/
def fieldsL (op : BitVec 8) (rd : SlotIdx) (imm : Word) : Fields := ⟨op, fieldOfSlot rd, 0, 0, 0, 0, imm⟩

/-- Format U (R53): opcode, rd and rs1, all else zero. -/
def fieldsU (op : BitVec 8) (rd rs1 : SlotIdx) : Fields := ⟨op, fieldOfSlot rd, fieldOfSlot rs1, 0, 0, 0, 0⟩

/-- Format B (R53): opcode, rd, rs1 and rs2, all else zero. -/
def fieldsB (op : BitVec 8) (rd rs1 rs2 : SlotIdx) : Fields :=
  ⟨op, fieldOfSlot rd, fieldOfSlot rs1, fieldOfSlot rs2, 0, 0, 0⟩

/-- Format T (R53): opcode, rd, rs1, rs2 and rs3, all else zero. -/
def fieldsT (op : BitVec 8) (rd rs1 rs2 rs3 : SlotIdx) : Fields :=
  ⟨op, fieldOfSlot rd, fieldOfSlot rs1, fieldOfSlot rs2, fieldOfSlot rs3, 0, 0⟩

/-- The fields of a command's word (R53, R56). -/
def Instr.fields (i : Instr) : Fields :=
  match i with
  | .li rd imm => fieldsL i.opcode rd imm
  | .newStd rd rs1 => fieldsU i.opcode rd rs1
  | .newExt rd rs1 => fieldsU i.opcode rd rs1
  | .fromReg rd rs1 rs2 rs3 => fieldsT i.opcode rd rs1 rs2 rs3
  | .withRtr rd rs1 rs2 => fieldsB i.opcode rd rs1 rs2
  | .toId rd rs1 => fieldsU i.opcode rd rs1
  | .isExt rd rs1 => fieldsU i.opcode rd rs1
  | .isStd rd rs1 => fieldsU i.opcode rd rs1
  | .isRtr rd rs1 => fieldsU i.opcode rd rs1
  | .rawId rd rs1 => fieldsU i.opcode rd rs1
  | .idType rd rs1 => fieldsU i.opcode rd rs1
  | .frameKind rd rs1 => fieldsU i.opcode rd rs1
  | .cmp rd rs1 rs2 => fieldsB i.opcode rd rs1 rs2

/-- The command word of a command (R52, R53, R56). -/
def encode (i : Instr) : CmdWord := i.fields.toWord

/-- A word given as a number of `nbits` bits, bit 0 the least significant, with every bit above `nbits` zero: the
command word it starts with. Command words are integers and not byte strings (R42), so nothing is laid out in bytes. -/
def tableWord (nbits w : Nat) : CmdWord := BitVec.ofNat 64 (w % 2 ^ nbits)

/-- What the decoder reads from a word numbered as spec/opcode_table.json numbers it. -/
def decodeTableWord (nbits w : Nat) : Option Instr :=
  match decode (tableWord nbits w) with
  | .ok i => some i
  | .error _ => none

end Sys2Proof
end

