-- ==== Sys2Proof/Machine/State.lean ====
section
/-! DEFINITION. The harness state (spec/10_state.md R29 to R33), the fault record (spec/60_exceptions.md R141, R143), the
state after reset (spec/70_reset_and_hazards.md R160), and the reasons for which a step has no successor. -/

namespace Sys2Proof.Machine

/-- A slot is `Unwritten` or `Written(w)` (R29, D2). This is the spec's own state: `Unwritten` is the value the spec
gives for reset (R160), and the spec says what a read of it does (R30). -/
inductive Slot where
  | unwritten
  | written (w : Word)
  deriving DecidableEq, Repr

/-- The fault codes of R143. -/
inductive FaultCode where
  /-- F_ILLEGAL_COMMAND -/
  | illegalCommand
  /-- F_UNWRITTEN_SLOT -/
  | unwrittenSlot
  /-- F_STD_RANGE -/
  | stdRange
  /-- F_EXT_RANGE -/
  | extRange
  /-- F_RAW_RANGE -/
  | rawRange
  /-- F_TAG_VALUE -/
  | tagValue
  deriving DecidableEq, Repr

/-- The operand field that a fault record may name (R141). -/
inductive SrcField where
  | rs1
  | rs2
  | rs3
  deriving DecidableEq, Repr

/-- A fault record (R141). -/
structure FaultRecord where
  code : FaultCode
  pc : Nat
  w : CmdWord
  field : Option SrcField
  value : Option Word
  deriving DecidableEq, Repr

/-- The part of a fault record that an operand check knows: its code, field and value (R143). Not a part of the state. -/
structure Cause where
  code : FaultCode
  field : Option SrcField
  value : Option Word
  deriving DecidableEq, Repr

/-- The harness state H (R29): the slots, the command index, the fault record and the program. The spec passes `prog` as
a parameter; it stands here because the host's interface has no parameters, and no step changes it
(notes/assumptions/5.md). -/
structure State where
  x : Vector Slot 16
  pc : Nat
  fault : Option FaultRecord
  prog : List CmdWord
  deriving DecidableEq, Repr

/-- Why `step` has no successor. A fault that the SPEC describes (R143) is none of these: raising it is a next state whose
`fault` holds the record (R131, notes/assumptions/1.md). -/
inductive Fault where
  /-- Raised by `step` where `pc = N` and no fault is recorded: the run has ended normally, and the spec gives no step
  (R131, R132). Safe: the model stops where the harness has no step (notes/assumptions/2.md). -/
  | endOfRun
  /-- Raised by `step` in a state that holds a fault record: the run has ended in that fault, and the spec gives no step
  (R131, R132, R141). Safe (notes/assumptions/2.md). -/
  | endedInFault (r : FaultRecord)
  /-- Raised by `step` where `pc > N`, which R31 says never happens. Safe: no such state is reached from reset
  (notes/assumptions/3.md). -/
  | pcPastEnd
  deriving DecidableEq, Repr

/-- A command with no meaning in the model. -/
inductive Refusal where
  /-- Raised by an arm of `exec` for a command that is not modelled. No arm does: every command has its meaning. Safe. -/
  | notModelled (mnemonic : String)
  deriving DecidableEq, Repr

/-- The harness right after reset (R160): every slot `Unwritten`, pc 0, no fault. R160 keeps "the program given at
launch"; no launch has given one here, so the program is empty (notes/assumptions/6.md). -/
def State.reset : State where
  x := Vector.replicate 16 .unwritten
  pc := 0
  fault := none
  prog := []

end Sys2Proof.Machine
end

