-- ==== Sys2Proof/Machine/Operands.lean ====
section
/-! DEFINITION. The slot encodings of every value type (spec/10_state.md R27), the operand checks (spec/30_encoding.md
R55; spec/40_construct.md R71, R73, R75; spec/60_exceptions.md R143), the operand roles of R55, the base-ID projection
(spec/00_scope.md R13), and the serialisation of a register value to bytes (spec/20_memory.md R42). -/

namespace Sys2Proof.Machine

/-! Slot words of results (R27). -/

/-- A `Reg` is its 32-bit value itself. -/
def encReg (r : Reg) : Word := r.bits

/-- A StdId is its integer, zero-extended. -/
def encStdId (s : StdId) : Word := s.bits.setWidth 32

/-- An ExtId is its integer, zero-extended. -/
def encExtId (e : ExtId) : Word := e.bits.setWidth 32

/-- Raw ID bits, zero-extended. -/
def encRawId (raw : RawId) : Word := raw.bits.setWidth 32

/-- 0 = false, 1 = true. -/
def encBool : Bool → Word
  | false => 0#32
  | true => 1#32

/-- 0 = Standard, 1 = Extended. -/
def encIdType : IdType → Word
  | .standard => 0#32
  | .extended => 1#32

/-- 0 = Data, 1 = Remote. -/
def encFrameKind : FrameKind → Word
  | .data => 0#32
  | .remote => 1#32

/-- Standard(s) is `zext_32(s)`; Extended(e) is `0x80000000 | e`. -/
def encId : Id → Word
  | .standard s => encStdId s
  | .extended e => 0x80000000#32 ||| encExtId e

/-- Less is 0xFFFFFFFF, Equal is 0, Greater is 1. The spec's `Ordering` is Lean's: Less is `lt`, Equal is `eq`, Greater
is `gt` (notes/assumptions/9.md). -/
def encOrdering : Ordering → Word
  | .lt => 0xFFFFFFFF#32
  | .eq => 0#32
  | .gt => 1#32

/-! Operand checks (R55): the typed operand, or the cause of the fault. -/

/-- A `Reg` operand accepts any 32-bit word (R24(a), R55). -/
def regOperand (v : Word) : Reg := ⟨v⟩

/-- A StdId operand: at most 0x7FF, or F_STD_RANGE (R71). -/
def stdIdOperand (f : SrcField) (v : Word) : Except Cause StdId :=
  if v ≤ Config.stdMax then .ok ⟨v.setWidth 11⟩ else .error ⟨.stdRange, some f, some v⟩

/-- An ExtId operand: at most 0x1FFFFFFF, or F_EXT_RANGE (R73). -/
def extIdOperand (f : SrcField) (v : Word) : Except Cause ExtId :=
  if v ≤ Config.extMax then .ok ⟨v.setWidth 29⟩ else .error ⟨.extRange, some f, some v⟩

/-- A raw operand: bits 31..29 zero, or F_RAW_RANGE (R75). -/
def rawIdOperand (f : SrcField) (v : Word) : Except Cause RawId :=
  if v.extractLsb' 29 3 = 0 then .ok ⟨v.setWidth 29⟩ else .error ⟨.rawRange, some f, some v⟩

/-- A Bool operand: 0 or 1, or F_TAG_VALUE (R27, R143). -/
def boolOperand (f : SrcField) (v : Word) : Except Cause Bool :=
  if v = 0 then .ok false else if v = 1 then .ok true else .error ⟨.tagValue, some f, some v⟩

/-- A FrameKind operand: 0 or 1, or F_TAG_VALUE (R27, R143). -/
def frameKindOperand (f : SrcField) (v : Word) : Except Cause FrameKind :=
  if v = 0 then .ok .data else if v = 1 then .ok .remote else .error ⟨.tagValue, some f, some v⟩

/-- An IdType operand: 0 or 1, or F_TAG_VALUE (R27, R143). -/
def idTypeOperand (f : SrcField) (v : Word) : Except Cause IdType :=
  if v = 0 then .ok .standard else if v = 1 then .ok .extended else .error ⟨.tagValue, some f, some v⟩

/-- The number of a fault code (R143). -/
def faultNumber : FaultCode → Nat
  | .illegalCommand => 1
  | .unwrittenSlot => 2
  | .stdRange => 3
  | .extRange => 4
  | .rawRange => 5
  | .tagValue => 6

/-! Operand roles (R55). -/

/-- The destination slot of a command. -/
def destination : Instr → SlotIdx
  | .li rd _ => rd
  | .newStd rd _ => rd
  | .newExt rd _ => rd
  | .fromReg rd _ _ _ => rd
  | .withRtr rd _ _ => rd
  | .toId rd _ => rd
  | .isExt rd _ => rd
  | .isStd rd _ => rd
  | .isRtr rd _ => rd
  | .rawId rd _ => rd
  | .idType rd _ => rd
  | .frameKind rd _ => rd
  | .cmp rd _ _ => rd

/-- The source fields of a command and the slots they name, in the order rs1, rs2, rs3 in which they are read (R131). -/
def sources : Instr → List (SrcField × SlotIdx)
  | .li _ _ => []
  | .newStd _ rs1 => [(.rs1, rs1)]
  | .newExt _ rs1 => [(.rs1, rs1)]
  | .fromReg _ rs1 rs2 rs3 => [(.rs1, rs1), (.rs2, rs2), (.rs3, rs3)]
  | .withRtr _ rs1 rs2 => [(.rs1, rs1), (.rs2, rs2)]
  | .toId _ rs1 => [(.rs1, rs1)]
  | .isExt _ rs1 => [(.rs1, rs1)]
  | .isStd _ rs1 => [(.rs1, rs1)]
  | .isRtr _ rs1 => [(.rs1, rs1)]
  | .rawId _ rs1 => [(.rs1, rs1)]
  | .idType _ rs1 => [(.rs1, rs1)]
  | .frameKind _ rs1 => [(.rs1, rs1)]
  | .cmp _ rs1 rs2 => [(.rs1, rs1), (.rs2, rs2)]

/-! The identifier collaborator's projection (R13). -/

/-- `base_id(e) = e[28:18]`, the upper 11 bits of an extended identifier (R13). -/
def baseId (e : ExtId) : StdId := ⟨e.bits.extractLsb' Config.baseShift 11⟩

/-! A register value as bytes: outside the CORE block, under the open parameter REG_BYTE_ORDER (R42). -/

/-- The four bytes of a register value, the least significant first. -/
def bytesLsbFirst (r : Reg) : List Byte :=
  [r.bits.extractLsb' 0 8, r.bits.extractLsb' 8 8, r.bits.extractLsb' 16 8, r.bits.extractLsb' 24 8]

/-- A register value laid out in bytes, in a given byte order (R42). -/
def regToBytes (order : ByteOrder) (r : Reg) : List Byte :=
  match order with
  | .little => bytesLsbFirst r
  | .big => (bytesLsbFirst r).reverse

/-- The register value of four bytes in a given byte order; no value for any other number of bytes (R42). -/
def regOfBytes (order : ByteOrder) (bs : List Byte) : Option Reg :=
  match order, bs with
  | .little, [b0, b1, b2, b3] => some ⟨b3 ++ b2 ++ b1 ++ b0⟩
  | .big, [b3, b2, b1, b0] => some ⟨b3 ++ b2 ++ b1 ++ b0⟩
  | _, _ => none

/-- A register value serialised in the open byte order REG_BYTE_ORDER (R42, D17). -/
def serialise (r : Reg) : List Byte := regToBytes Config.regByteOrder r

end Sys2Proof.Machine
end

