-- ==== Sys2Proof/Machine/Flags.lean ====
section
/-! DEFINITION. The two flags inside a register value, RTR and XTD (spec/10_state.md R21, R26), and their placement
(spec/30_encoding.md R50, R51). The CORE block has no condition codes and no other flag (R26). -/

namespace Sys2Proof.Machine

/-- `r[29]`, the RTR flag as a bit (R51). -/
def rtrBit (r : Reg) : BitVec 1 := r.bits.extractLsb' Config.rtrBit 1

/-- `r[30]`, the XTD flag as a bit (R51). -/
def xtdBit (r : Reg) : BitVec 1 := r.bits.extractLsb' Config.xtdBit 1

/-- The RTR flag is set (R26). -/
def rtr (r : Reg) : Bool := rtrBit r == 1#1

/-- The XTD flag is set (R26). -/
def xtd (r : Reg) : Bool := xtdBit r == 1#1

/-- The frame kind at bit 29: the RTR flag of Data = 0, Remote = 1 (R26, R50). -/
def placeRtr (k : FrameKind) : BitVec 32 := encFrameKind k <<< Config.rtrBit

/-- The identifier type at bit 30: the XTD flag of Standard = 0, Extended = 1 (R26, R50). -/
def placeXtd (t : IdType) : BitVec 32 := encIdType t <<< Config.xtdBit

end Sys2Proof.Machine
end

