-- ==== Sys2Proof/Machine/Ops.lean ====
section
/-! DEFINITION. The shared operations of the harness: reading and writing a slot (spec/10_state.md R30), completing a
command (R31), raising a fault (spec/60_exceptions.md R141, R142), fetching a command (spec/43_host.md R131), reset and
launch (spec/70_reset_and_hazards.md R160, R162). There is no trap entry and no return (R145, R146). -/

namespace Sys2Proof.Machine

/-- The outcome of a step of this machine. -/
abbrev Result := Host.Outcome State Fault Refusal

/-- `x[i]` of R11 as a source operand: the word, or F_UNWRITTEN_SLOT with the field and no value (R30, R143). -/
def readSlot (s : State) (f : SrcField) (n : SlotIdx) : Except Cause Word :=
  match s.x[n] with
  | .written w => .ok w
  | .unwritten => .error ⟨.unwrittenSlot, some f, none⟩

/-- `x[rd] <- v; pc <- pc + 1`: a command that completes (R30, R31). -/
def complete (s : State) (rd : SlotIdx) (v : Word) : State :=
  { s with x := s.x.set rd (.written v), pc := s.pc + 1 }

/-- `raise`: write the fault record; no slot is written and pc stays (R131, R141, R142). This is the whole of what the
spec has for taking an exception (R145). -/
def raise (s : State) (w : CmdWord) (c : Cause) : State :=
  { s with fault := some ⟨c.code, s.pc, w, c.field, c.value⟩ }

/-- The end of every command's rule: write rd and go on, or raise the command's fault (R131). A raised fault is a next
state (notes/assumptions/1.md). `w` is the word of the command (R11). -/
def finish (s : State) (w : CmdWord) (rd : SlotIdx) : Except Cause Word → Result
  | .ok v => .next (complete s rd v)
  | .error c => .next (raise s w c)

/-- A command of format U: read rs1, then apply its rule (R53, R131). -/
def unary (s : State) (w : CmdWord) (rd rs1 : SlotIdx) (rule : Word → Except Cause Word) : Result :=
  finish s w rd ((readSlot s .rs1 rs1).bind rule)

/-- A command of format B: read rs1 and rs2, then apply its rule (R53, R131, R144). -/
def binary (s : State) (w : CmdWord) (rd rs1 rs2 : SlotIdx) (rule : Word → Word → Except Cause Word) : Result :=
  finish s w rd ((readSlot s .rs1 rs1).bind fun a => (readSlot s .rs2 rs2).bind fun b => rule a b)

/-- A command of format T: read rs1, rs2 and rs3, then apply its rule (R53, R131, R144). -/
def ternary (s : State) (w : CmdWord) (rd rs1 rs2 rs3 : SlotIdx)
    (rule : Word → Word → Word → Except Cause Word) : Result :=
  finish s w rd ((readSlot s .rs1 rs1).bind fun a => (readSlot s .rs2 rs2).bind fun b =>
    (readSlot s .rs3 rs3).bind fun c => rule a b c)

/-- The word `prog[pc]` of a state that has a step, or why it has none (R131, R132): a recorded fault first, then the end
of the program. -/
def fetch (s : State) : Except Fault CmdWord :=
  match s.fault with
  | some r => .error (.endedInFault r)
  | none =>
    match s.prog[s.pc]? with
    | some w => .ok w
    | none => if s.pc = s.prog.length then .error .endOfRun else .error .pcPastEnd

/-- Executing an illegal word: F_ILLEGAL_COMMAND with no field and no value (R57, R143). -/
def raiseIllegal (s : State) (w : CmdWord) : Result :=
  .next (raise s w ⟨.illegalCommand, none, none⟩)

/-- Reset: the state of R160, with the program kept. It is the only thing that clears a fault (R141). -/
def resetHarness (s : State) : State := { State.reset with prog := s.prog }

/-- Launch with a program: the state after reset with that program (R160, R162). -/
def launch (prog : List CmdWord) : State := { State.reset with prog := prog }

/-- The state with the word `w` as the command at `pc`, made ready to fetch it: no fault is recorded, and a program that
is too short is filled with zero words up to `pc`. This is a load from outside the machine (notes/assumptions/6.md). -/
def placeCommand (s : State) (w : CmdWord) : State :=
  { s with
    fault := none
    prog := s.prog.take s.pc ++ List.replicate (s.pc - s.prog.length) 0 ++ w :: s.prog.drop (s.pc + 1) }

end Sys2Proof.Machine
end

