-- ==== Sys2Proof/Machine/Construct.lean ====
section
/-! DEFINITION. The constructors and the RTR field update (spec/40_construct.md R70 to R76): the CORE functions new_std,
new_ext, from_reg and with_rtr, and the commands that apply them. -/

namespace Sys2Proof.Machine

/-- `new_std(s) = zext_32(s) << 18` (R70). r[31] = 0 is the spec's decision D8 (notes/assumptions/11.md). -/
def newStd (s : StdId) : Reg := ⟨s.bits.setWidth 32 <<< Config.stdShift⟩

/-- `new_ext(e) = zext_32(e) | 0x40000000` (R72). -/
def newExt (e : ExtId) : Reg := ⟨e.bits.setWidth 32 ||| Config.xtdMask⟩

/-- `from_reg(raw, k, t) = raw | (k << 29) | (t << 30)` (R74). -/
def fromReg (raw : RawId) (k : FrameKind) (t : IdType) : Reg :=
  ⟨raw.bits.setWidth 32 ||| placeRtr k ||| placeXtd t⟩

/-- `with_rtr(r, b)`: bit 29 set to b, every other bit kept (R76, C3). -/
def withRtr (r : Reg) (b : Bool) : Reg :=
  if b then ⟨r.bits ||| Config.rtrMask⟩ else ⟨r.bits &&& ~~~Config.rtrMask⟩

/-- ID.NEW_STD (R70, R71). -/
def execNewStd (rd rs1 : SlotIdx) (s : State) : Result :=
  unary s (encode (.newStd rd rs1)) rd rs1 fun v =>
    (stdIdOperand .rs1 v).map fun id => encReg (newStd id)

/-- ID.NEW_EXT (R72, R73). -/
def execNewExt (rd rs1 : SlotIdx) (s : State) : Result :=
  unary s (encode (.newExt rd rs1)) rd rs1 fun v =>
    (extIdOperand .rs1 v).map fun id => encReg (newExt id)

/-- ID.FROM_REG (R74, R75): the raw check comes before the two tag checks, in operand order (R144). -/
def execFromReg (rd rs1 rs2 rs3 : SlotIdx) (s : State) : Result :=
  ternary s (encode (.fromReg rd rs1 rs2 rs3)) rd rs1 rs2 rs3 fun v k t =>
    (rawIdOperand .rs1 v).bind fun raw =>
    (frameKindOperand .rs2 k).bind fun kind =>
    (idTypeOperand .rs3 t).map fun type => encReg (fromReg raw kind type)

/-- ID.WITH_RTR (R76). -/
def execWithRtr (rd rs1 rs2 : SlotIdx) (s : State) : Result :=
  binary s (encode (.withRtr rd rs1 rs2)) rd rs1 rs2 fun v b =>
    (boolOperand .rs2 b).map fun flag => encReg (withRtr (regOperand v) flag)

end Sys2Proof.Machine
end

