-- ==== Sys2Proof/Machine/HostCommand.lean ====
section
/-! DEFINITION. The harness-only command LI (spec/43_host.md R130). -/

namespace Sys2Proof.Machine

/-- LI (R130): `x[rd] <- imm; pc <- pc + 1`. The literal is checked against no type. -/
def execLi (rd : SlotIdx) (imm : Word) (s : State) : Result := .next (complete s rd imm)

end Sys2Proof.Machine
end

