-- ==== Sys2Proof/Machine/Query.lean ====
section
/-! DEFINITION. Identifier extraction, the query helpers and the type tags (spec/41_query.md R90 to R97): the CORE
functions and the commands that apply them. Every one is total on all 2^32 words, and masks what it reads (R23, R24). -/

namespace Sys2Proof.Machine

/-- `to_id(r)`: the field that the XTD bit selects, masked to its width (R51, R90). -/
def toId (r : Reg) : Id :=
  if xtd r then .extended ⟨(r.bits &&& Config.extMask).setWidth 29⟩
  else .standard ⟨((r.bits &&& Config.stdMask) >>> Config.stdShift).setWidth 11⟩

/-- `is_ext(r) = r[30]` (R92). -/
def isExt (r : Reg) : Bool := xtd r

/-- `is_std(r) = 1 - r[30]` (R93). -/
def isStd (r : Reg) : Bool := !xtd r

/-- `is_rtr(r) = r[29]` (R94). -/
def isRtr (r : Reg) : Bool := rtr r

/-- `raw_id(r) = r & 0x1FFFFFFF`, whatever XTD is (R95). -/
def rawId (r : Reg) : RawId := ⟨(r.bits &&& Config.extMask).setWidth 29⟩

/-- `id_type(r)`, from bit 30 alone (R96). -/
def idType (r : Reg) : IdType := if xtd r then .extended else .standard

/-- `frame_kind(r)`, from bit 29 alone (R97). -/
def frameKind (r : Reg) : FrameKind := if rtr r then .remote else .data

/-- ID.TO_ID (R90). -/
def execToId (rd rs1 : SlotIdx) (s : State) : Result :=
  unary s (encode (.toId rd rs1)) rd rs1 fun v => .ok (encId (toId (regOperand v)))

/-- ID.IS_EXT (R92). -/
def execIsExt (rd rs1 : SlotIdx) (s : State) : Result :=
  unary s (encode (.isExt rd rs1)) rd rs1 fun v => .ok (encBool (isExt (regOperand v)))

/-- ID.IS_STD (R93). -/
def execIsStd (rd rs1 : SlotIdx) (s : State) : Result :=
  unary s (encode (.isStd rd rs1)) rd rs1 fun v => .ok (encBool (isStd (regOperand v)))

/-- ID.IS_RTR (R94). -/
def execIsRtr (rd rs1 : SlotIdx) (s : State) : Result :=
  unary s (encode (.isRtr rd rs1)) rd rs1 fun v => .ok (encBool (isRtr (regOperand v)))

/-- ID.RAW_ID (R95). -/
def execRawId (rd rs1 : SlotIdx) (s : State) : Result :=
  unary s (encode (.rawId rd rs1)) rd rs1 fun v => .ok (encRawId (rawId (regOperand v)))

/-- ID.ID_TYPE (R96). -/
def execIdType (rd rs1 : SlotIdx) (s : State) : Result :=
  unary s (encode (.idType rd rs1)) rd rs1 fun v => .ok (encIdType (idType (regOperand v)))

/-- ID.FRAME_KIND (R97). -/
def execFrameKind (rd rs1 : SlotIdx) (s : State) : Result :=
  unary s (encode (.frameKind rd rs1)) rd rs1 fun v => .ok (encFrameKind (frameKind (regOperand v)))

end Sys2Proof.Machine
end

