-- ==== Sys2Proof/Machine/Priority.lean ====
section
/-! DEFINITION. The arbitration comparator (spec/42_priority.md R110 to R117): the CORE function cmp, its key form, the
command ID.CMP, and what it is to win arbitration. -/

namespace Sys2Proof.Machine

/-- `cmpu(a, b)`: the unsigned three-way comparison (R11, R16). -/
def cmpu {n : Nat} (a b : BitVec n) : Ordering := compare a.toNat b.toNat

/-- `reverse(o)`: Less and Greater swapped, Equal kept (R11). -/
def reverse : Ordering → Ordering
  | .lt => .gt
  | .eq => .eq
  | .gt => .lt

/-- `o.then(p)`: o if o is not Equal, and p otherwise (R11). -/
def andThen (o p : Ordering) : Ordering :=
  match o with
  | .lt => .lt
  | .eq => p
  | .gt => .gt

/-- `rtr_o` of R111: a data frame (0) outranks a remote frame (1). -/
def rtrOrder (a b : Reg) : Ordering := reverse (cmpu (rtrBit a) (rtrBit b))

/-- `cmp(a, b)` of R111. The order is priority order: Greater means that a wins arbitration against b (R112). -/
def cmp (a b : Reg) : Ordering :=
  match toId a, toId b with
  | .standard p, .standard q => andThen (reverse (cmpu p.bits q.bits)) (rtrOrder a b)
  | .extended p, .extended q => andThen (reverse (cmpu p.bits q.bits)) (rtrOrder a b)
  | .standard p, .extended q => andThen (reverse (cmpu p.bits (baseId q).bits)) .gt
  | .extended p, .standard q => andThen (reverse (cmpu (baseId p).bits q.bits)) .lt

/-- The 4-tuple key of R114. -/
def priorityKey (r : Reg) : Nat × Nat × Nat × Nat :=
  match toId r with
  | .standard s => (s.bits.toNat, 0, 0, (rtrBit r).toNat)
  | .extended e => ((baseId e).bits.toNat, 1, e.bits.toNat, (rtrBit r).toNat)

/-- `lex` of R114: the tuples compared left to right as unsigned integers. -/
def lexCompare (a b : Nat × Nat × Nat × Nat) : Ordering :=
  andThen (compare a.1 b.1)
    (andThen (compare a.2.1 b.2.1)
      (andThen (compare a.2.2.1 b.2.2.1) (compare a.2.2.2 b.2.2.2)))

/-- Winning arbitration among contending values (R117): one of them, and Greater than or Equal to every other. -/
def IsWinner (contenders : List Reg) (r : Reg) : Prop :=
  r ∈ contenders ∧ ∀ other ∈ contenders, cmp r other ≠ .lt

/-- ID.CMP (R110). -/
def execCmp (rd rs1 rs2 : SlotIdx) (s : State) : Result :=
  binary s (encode (.cmp rd rs1 rs2)) rd rs1 rs2 fun a b =>
    .ok (encOrdering (cmp (regOperand a) (regOperand b)))

end Sys2Proof.Machine
end

