-- ==== Sys2Proof/Machine/Dispatch.lean ====
section
/-! DEFINITION. One arm per command: the rule that spec/43_host.md R131 runs for it. -/

namespace Sys2Proof.Machine

def exec (i : Instr) (s : State) : Host.Outcome State Fault Refusal :=
  match i with
  | .li rd imm => Sys2Proof.Machine.execLi rd imm s
  | .newStd rd rs1 => Sys2Proof.Machine.execNewStd rd rs1 s
  | .newExt rd rs1 => Sys2Proof.Machine.execNewExt rd rs1 s
  | .fromReg rd rs1 rs2 rs3 => Sys2Proof.Machine.execFromReg rd rs1 rs2 rs3 s
  | .withRtr rd rs1 rs2 => Sys2Proof.Machine.execWithRtr rd rs1 rs2 s
  | .toId rd rs1 => Sys2Proof.Machine.execToId rd rs1 s
  | .isExt rd rs1 => Sys2Proof.Machine.execIsExt rd rs1 s
  | .isStd rd rs1 => Sys2Proof.Machine.execIsStd rd rs1 s
  | .isRtr rd rs1 => Sys2Proof.Machine.execIsRtr rd rs1 s
  | .rawId rd rs1 => Sys2Proof.Machine.execRawId rd rs1 s
  | .idType rd rs1 => Sys2Proof.Machine.execIdType rd rs1 s
  | .frameKind rd rs1 => Sys2Proof.Machine.execFrameKind rd rs1 s
  | .cmp rd rs1 rs2 => Sys2Proof.Machine.execCmp rd rs1 rs2 s

end Sys2Proof.Machine
end

