-- ==== Sys2Proof/Machine/Step.lean ====
section
/-! DEFINITION. The harness step (spec/43_host.md R131): fetch, decode, run. -/

namespace Sys2Proof.Machine

/-- `step(H)` of R131. Where the spec says "no step", the answer is a `Fault` that names why (notes/assumptions/2.md). -/
def step (s : State) : Host.Outcome State Fault Refusal :=
  match fetch s with
  | .error f => .fault f
  | .ok w =>
    match decode w with
    | .error _ => raiseIllegal s w
    | .ok i => exec i s

/-- The state with the given word as the next command that `step` fetches (notes/assumptions/6.md). -/
def State.withFetchWord (s : State) (nbits w : Nat) : State := placeCommand s (tableWord nbits w)

end Sys2Proof.Machine
end

