-- ==== Sys2Proof/Machine/Assembler.lean ====
section
/-! DEFINITION. The assembler syntax (spec/30_encoding.md R59, R60): a command as a line of text, and a line of text as a
command. There are no pseudo-instructions, so a line stands for at most one command. Blanks, the spelling of numbers and
the listing form are conventions that R59 does not fix (notes/assumptions/12.md). -/

namespace Sys2Proof.Machine

/-- The mnemonic of a command (R56). -/
def mnemonic : Instr → List Char
  | .li _ _ => ['l', 'i']
  | .newStd _ _ => ['i', 'd', '.', 'n', 'e', 'w', '_', 's', 't', 'd']
  | .newExt _ _ => ['i', 'd', '.', 'n', 'e', 'w', '_', 'e', 'x', 't']
  | .fromReg _ _ _ _ => ['i', 'd', '.', 'f', 'r', 'o', 'm', '_', 'r', 'e', 'g']
  | .withRtr _ _ _ => ['i', 'd', '.', 'w', 'i', 't', 'h', '_', 'r', 't', 'r']
  | .toId _ _ => ['i', 'd', '.', 't', 'o', '_', 'i', 'd']
  | .isExt _ _ => ['i', 'd', '.', 'i', 's', '_', 'e', 'x', 't']
  | .isStd _ _ => ['i', 'd', '.', 'i', 's', '_', 's', 't', 'd']
  | .isRtr _ _ => ['i', 'd', '.', 'i', 's', '_', 'r', 't', 'r']
  | .rawId _ _ => ['i', 'd', '.', 'r', 'a', 'w', '_', 'i', 'd']
  | .idType _ _ => ['i', 'd', '.', 'i', 'd', '_', 't', 'y', 'p', 'e']
  | .frameKind _ _ => ['i', 'd', '.', 'f', 'r', 'a', 'm', 'e', '_', 'k', 'i', 'n', 'd']
  | .cmp _ _ _ => ['i', 'd', '.', 'c', 'm', 'p']

/-! Numbers. -/

/-- The sixteen digits, in order. -/
def digitChars : List Char := ['0', '1', '2', '3', '4', '5', '6', '7', '8', '9', 'A', 'B', 'C', 'D', 'E', 'F']

/-- The digit of a value below 16. -/
def digitChar (n : Nat) : Char := digitChars.getD n '0'

/-- The value of a digit in the given base; a letter digit may be written in either case. -/
def digitValue (base : Nat) (c : Char) : Option Nat :=
  let n := digitChars.findIdx (· == c.toUpper)
  if n < base then some n else none

/-- The value of a string of digits in the given base, most significant first, on top of `acc`. -/
def digitsValue (base : Nat) (acc : Nat) : List Char → Option Nat
  | [] => some acc
  | c :: cs => (digitValue base c).bind fun d => digitsValue base (acc * base + d) cs

/-- A number of at least one digit. -/
def parseDigits (base : Nat) : List Char → Option Nat
  | [] => none
  | cs => digitsValue base 0 cs

/-- LI's immediate: a decimal literal, or a hexadecimal one with the prefix `0x`, in 0..=0xFFFFFFFF (R59). -/
def parseLiteral (cs : List Char) : Option Word :=
  let value :=
    match cs with
    | '0' :: 'x' :: ds => parseDigits 16 ds
    | ds => parseDigits 10 ds
  value.bind fun n => if n ≤ 0xFFFFFFFF then some (BitVec.ofNat 32 n) else none

/-- A literal as the listing shows it: `0x` and eight hexadecimal digits. -/
def literalText (w : Word) : List Char :=
  '0' :: 'x' :: [28, 24, 20, 16, 12, 8, 4, 0].map fun k => digitChar (w.extractLsb' k 4).toNat

/-! Slots. -/

/-- The name `xN` of a slot, N from 0 to 15 in decimal (R59). -/
def slotText (n : SlotIdx) : List Char :=
  if n.val < 10 then ['x', digitChar n.val] else ['x', '1', digitChar (n.val - 10)]

/-- The slot of that name; no other text names a slot. -/
def parseSlot (cs : List Char) : Option SlotIdx :=
  (List.finRange 16).find? fun n => slotText n == cs

/-! Commands. -/

/-- The command with one source slot and the given mnemonic. -/
def parseUnary (name : List Char) (rd rs1 : SlotIdx) : Option Instr :=
  [Instr.newStd rd rs1, .newExt rd rs1, .toId rd rs1, .isExt rd rs1, .isStd rd rs1, .isRtr rd rs1, .rawId rd rs1,
    .idType rd rs1, .frameKind rd rs1].find? fun i => mnemonic i == name

/-- The command with two source slots and the given mnemonic. -/
def parseBinary (name : List Char) (rd rs1 rs2 : SlotIdx) : Option Instr :=
  [Instr.withRtr rd rs1 rs2, .cmp rd rs1 rs2].find? fun i => mnemonic i == name

/-- The command with three source slots and the given mnemonic. -/
def parseTernary (name : List Char) (rd rs1 rs2 rs3 : SlotIdx) : Option Instr :=
  [Instr.fromReg rd rs1 rs2 rs3].find? fun i => mnemonic i == name

/-- A command from its mnemonic and its operands, in the order rd, rs1, rs2, rs3 (R59). -/
def parseCommand (name : List Char) (operands : List (List Char)) : Option Instr :=
  match operands with
  | [a, b] =>
    (parseSlot a).bind fun rd =>
      if name == ['l', 'i'] then (parseLiteral b).map fun imm => .li rd imm
      else (parseSlot b).bind fun rs1 => parseUnary name rd rs1
  | [a, b, c] =>
    (parseSlot a).bind fun rd => (parseSlot b).bind fun rs1 => (parseSlot c).bind fun rs2 =>
      parseBinary name rd rs1 rs2
  | [a, b, c, d] =>
    (parseSlot a).bind fun rd => (parseSlot b).bind fun rs1 => (parseSlot c).bind fun rs2 =>
      (parseSlot d).bind fun rs3 => parseTernary name rd rs1 rs2 rs3
  | _ => none

/-! Lines and programs. -/

/-- A blank: a space, a tab or a carriage return. -/
def isBlank (c : Char) : Bool := c == ' ' || c == '\t' || c == '\r'

/-- A text without the blanks at its two ends. -/
def trim (cs : List Char) : List Char := ((cs.dropWhile isBlank).reverse.dropWhile isBlank).reverse

/-- A text cut at every occurrence of a separator. -/
def splitAtChar (sep : Char) : List Char → List (List Char)
  | [] => [[]]
  | c :: cs =>
    if c == sep then [] :: splitAtChar sep cs
    else
      match splitAtChar sep cs with
      | [] => [[c]]
      | part :: parts => (c :: part) :: parts

/-- A line without its comment, which runs from `#` to the end of the line (R59). -/
def stripComment (cs : List Char) : List Char := cs.takeWhile (· != '#')

/-- A line of assembler text: `some none` for a line with no command, `none` for a line that is not of the syntax. -/
def assembleLine (line : List Char) : Option (Option Instr) :=
  let body := trim (stripComment line)
  if body.isEmpty then some none
  else
    (parseCommand (body.takeWhile fun c => !isBlank c)
      ((splitAtChar ',' (body.dropWhile fun c => !isBlank c)).map trim)).map some

/-- The commands of a program's lines, in order; none if one of them is not of the syntax. -/
def assembleLines : List (List Char) → Option (List Instr)
  | [] => some []
  | line :: lines =>
    (assembleLine line).bind fun cmd => (assembleLines lines).map fun cmds =>
      match cmd with
      | none => cmds
      | some i => i :: cmds

/-- A program's text as its command words. -/
def assemble (text : List Char) : Option (List CmdWord) :=
  (assembleLines (splitAtChar '\n' text)).map fun cmds => cmds.map encode

/-- The operands of a command as text, in the order of R55. -/
def operandTexts : Instr → List (List Char)
  | .li rd imm => [slotText rd, literalText imm]
  | .newStd rd rs1 => [slotText rd, slotText rs1]
  | .newExt rd rs1 => [slotText rd, slotText rs1]
  | .fromReg rd rs1 rs2 rs3 => [slotText rd, slotText rs1, slotText rs2, slotText rs3]
  | .withRtr rd rs1 rs2 => [slotText rd, slotText rs1, slotText rs2]
  | .toId rd rs1 => [slotText rd, slotText rs1]
  | .isExt rd rs1 => [slotText rd, slotText rs1]
  | .isStd rd rs1 => [slotText rd, slotText rs1]
  | .isRtr rd rs1 => [slotText rd, slotText rs1]
  | .rawId rd rs1 => [slotText rd, slotText rs1]
  | .idType rd rs1 => [slotText rd, slotText rs1]
  | .frameKind rd rs1 => [slotText rd, slotText rs1]
  | .cmp rd rs1 rs2 => [slotText rd, slotText rs1, slotText rs2]

/-- Texts joined by a comma and a space. -/
def joinOperands : List (List Char) → List Char
  | [] => []
  | [t] => t
  | t :: ts => t ++ ',' :: ' ' :: joinOperands ts

/-- A command as a line of assembler text (R59). -/
def listing (i : Instr) : List Char := mnemonic i ++ ' ' :: joinOperands (operandTexts i)

end Sys2Proof.Machine
end

