-- ==== Sys2Proof/Safety.lean ====
section
/-! DEFINITION. The end of a run (spec/43_host.md R132), the shape of a fault record (spec/60_exceptions.md R143), the
invariant of the harness state (spec/10_state.md R31; R141, R142), and what a safe run is. -/

namespace Sys2Proof.Machine

/-- The run has ended normally: `fault = None` and `pc = N` (R132). -/
def EndedNormally (s : State) : Prop := s.fault = none ∧ s.pc = s.prog.length

/-- The run has ended in a fault: `fault ≠ None` (R132). -/
def EndedInFault (s : State) : Prop := s.fault ≠ none

/-- The field and value that R143's table records for a code, and that the value breaks the check of that code. -/
def FaultRecord.wellShaped (r : FaultRecord) : Bool :=
  match r.code, r.field, r.value with
  | .illegalCommand, none, none => true
  | .unwrittenSlot, some _, none => true
  | .stdRange, some .rs1, some v => decide (Config.stdMax < v)
  | .extRange, some .rs1, some v => decide (Config.extMax < v)
  | .rawRange, some .rs1, some v => v.extractLsb' 29 3 != 0
  | .tagValue, some .rs2, some v => v != 0 && v != 1
  | .tagValue, some .rs3, some v => v != 0 && v != 1
  | _, _, _ => false

/-- The invariant of the harness: pc never exceeds N (R31); a recorded fault is that of the command pc is at (R141,
R142), has the shape of R143's table, and says F_ILLEGAL_COMMAND exactly where that command's word is illegal (R57). -/
def State.wf (s : State) : Prop :=
  s.pc ≤ s.prog.length ∧
  ∀ r, s.fault = some r →
    r.pc = s.pc ∧ s.prog[s.pc]? = some r.w ∧ r.wellShaped = true ∧
    (r.code = .illegalCommand ↔ ∀ i, decode r.w ≠ .ok i)

/-- A safe run: no state it reaches holds a fault record (R132). -/
def SafeRun (s : State) : Prop := ∀ k t, Sys2Proof.core.run k s = .next t → t.fault = none

end Sys2Proof.Machine
end

