-- ==== Sys2Proof/Certificates/Slice0/Obligations.lean ====
section
/-! DEFINITION. The statements for the provers. Each docstring names the rule of spec/ it formalises; where the spec
marks that rule, or a clause of it, as its own decision (D<n>) or as derived, the docstring says so. -/

open Sys2Proof Sys2Proof.Machine

/-! ## Encoding -/

/-- Decoding the word of a command gives the command back, for every command and every operand. Derived from R52, R53,
R54, R56, R57 (decisions D3 to D5). -/
def Obligations.DecodeOfEncodeIsTheCommand : Prop :=
  ∀ i : Instr, decode (encode i) = .ok i

/-- Each command has one word only: a word that decodes is the word of what it decodes to. So the word `w` of a fault
record, which the model takes from the encoder, is the fetched word (notes/assumptions/7.md). Derived from R53, R57. -/
def Obligations.EncodeOfDecodeIsTheWord : Prop :=
  ∀ (w : CmdWord) (i : Instr), decode w = .ok i → encode i = w

/-- R53: "A word selects a command when (w & mask) = (opcode << 56) for that command's format." (decision D3) -/
def Obligations.WordSelectsCommandByMask : Prop :=
  ∀ w : CmdWord,
    ((∃ rd imm, decode w = .ok (.li rd imm)) ↔ w &&& 0xFF0FFFFF00000000#64 = 0x01#64 <<< 56) ∧
    ((∃ rd rs1, decode w = .ok (.newStd rd rs1)) ↔ w &&& 0xFF00FFFFFFFFFFFF#64 = 0x10#64 <<< 56) ∧
    ((∃ rd rs1, decode w = .ok (.newExt rd rs1)) ↔ w &&& 0xFF00FFFFFFFFFFFF#64 = 0x11#64 <<< 56) ∧
    ((∃ rd rs1 rs2 rs3, decode w = .ok (.fromReg rd rs1 rs2 rs3)) ↔
      w &&& 0xFF0000FFFFFFFFFF#64 = 0x12#64 <<< 56) ∧
    ((∃ rd rs1 rs2, decode w = .ok (.withRtr rd rs1 rs2)) ↔ w &&& 0xFF000FFFFFFFFFFF#64 = 0x13#64 <<< 56) ∧
    ((∃ rd rs1, decode w = .ok (.toId rd rs1)) ↔ w &&& 0xFF00FFFFFFFFFFFF#64 = 0x20#64 <<< 56) ∧
    ((∃ rd rs1, decode w = .ok (.isExt rd rs1)) ↔ w &&& 0xFF00FFFFFFFFFFFF#64 = 0x21#64 <<< 56) ∧
    ((∃ rd rs1, decode w = .ok (.isStd rd rs1)) ↔ w &&& 0xFF00FFFFFFFFFFFF#64 = 0x22#64 <<< 56) ∧
    ((∃ rd rs1, decode w = .ok (.isRtr rd rs1)) ↔ w &&& 0xFF00FFFFFFFFFFFF#64 = 0x23#64 <<< 56) ∧
    ((∃ rd rs1, decode w = .ok (.rawId rd rs1)) ↔ w &&& 0xFF00FFFFFFFFFFFF#64 = 0x24#64 <<< 56) ∧
    ((∃ rd rs1, decode w = .ok (.idType rd rs1)) ↔ w &&& 0xFF00FFFFFFFFFFFF#64 = 0x25#64 <<< 56) ∧
    ((∃ rd rs1, decode w = .ok (.frameKind rd rs1)) ↔ w &&& 0xFF00FFFFFFFFFFFF#64 = 0x26#64 <<< 56) ∧
    ((∃ rd rs1 rs2, decode w = .ok (.cmp rd rs1 rs2)) ↔ w &&& 0xFF000FFFFFFFFFFF#64 = 0x30#64 <<< 56)

/-- R54 (decision D3): a slot field names slot x[field] directly, with no offset and no alias; LI's immediate is the
32-bit field unchanged. The bit positions are those of R52. -/
def Obligations.OperandsComeFromTheirFields : Prop :=
  ∀ w : CmdWord,
    let rdF := (w.extractLsb' 52 4).toNat
    let rs1F := (w.extractLsb' 48 4).toNat
    let rs2F := (w.extractLsb' 44 4).toNat
    let rs3F := (w.extractLsb' 40 4).toNat
    match decode w with
    | .error _ => True
    | .ok (.li rd imm) => rd.val = rdF ∧ imm = w.extractLsb' 0 32
    | .ok (.newStd rd rs1) => rd.val = rdF ∧ rs1.val = rs1F
    | .ok (.newExt rd rs1) => rd.val = rdF ∧ rs1.val = rs1F
    | .ok (.fromReg rd rs1 rs2 rs3) => rd.val = rdF ∧ rs1.val = rs1F ∧ rs2.val = rs2F ∧ rs3.val = rs3F
    | .ok (.withRtr rd rs1 rs2) => rd.val = rdF ∧ rs1.val = rs1F ∧ rs2.val = rs2F
    | .ok (.toId rd rs1) => rd.val = rdF ∧ rs1.val = rs1F
    | .ok (.isExt rd rs1) => rd.val = rdF ∧ rs1.val = rs1F
    | .ok (.isStd rd rs1) => rd.val = rdF ∧ rs1.val = rs1F
    | .ok (.isRtr rd rs1) => rd.val = rdF ∧ rs1.val = rs1F
    | .ok (.rawId rd rs1) => rd.val = rdF ∧ rs1.val = rs1F
    | .ok (.idType rd rs1) => rd.val = rdF ∧ rs1.val = rs1F
    | .ok (.frameKind rd rs1) => rd.val = rdF ∧ rs1.val = rs1F
    | .ok (.cmp rd rs1 rs2) => rd.val = rdF ∧ rs1.val = rs1F ∧ rs2.val = rs2F

/-- Derived from R57 and R58 (decision D5): every unassigned opcode is illegal, 0x00 among them, and so is a non-zero
reserved field and every non-zero field that the opcode's format does not use. -/
def Obligations.ReservedEncodingsAreIllegal : Prop :=
  ∀ w : CmdWord,
    let op := (w.extractLsb' 56 8).toNat
    let rs1F := w.extractLsb' 48 4
    let rs2F := w.extractLsb' 44 4
    let rs3F := w.extractLsb' 40 4
    let resF := w.extractLsb' 32 8
    let immF := w.extractLsb' 0 32
    (op = 0 ∨ (0x02 ≤ op ∧ op ≤ 0x0F) ∨ (0x14 ≤ op ∧ op ≤ 0x1F) ∨ (0x27 ≤ op ∧ op ≤ 0x2F) ∨ 0x31 ≤ op →
      ∃ e, decode w = .error e) ∧
    (resF ≠ 0 → ∃ e, decode w = .error e) ∧
    (op ≠ 0x01 → immF ≠ 0 → ∃ e, decode w = .error e) ∧
    (op ≠ 0x12 → rs3F ≠ 0 → ∃ e, decode w = .error e) ∧
    (op ≠ 0x12 → op ≠ 0x13 → op ≠ 0x30 → rs2F ≠ 0 → ∃ e, decode w = .error e) ∧
    (op = 0x01 → rs1F ≠ 0 → ∃ e, decode w = .error e)

/-- Words written out from R52, R53, R56 decode to their commands, one for each format at least (R61 and
95_test_vectors.md L2.4, L2.5, L3). -/
def Obligations.WrittenOutWordsDecode : Prop :=
  decode 0x01F00000FFFFFFFF#64 = .ok (.li 15 0xFFFFFFFF#32) ∧
  decode 0x1021000000000000#64 = .ok (.newStd 2 1) ∧
  decode 0x1241230000000000#64 = .ok (.fromReg 4 1 2 3) ∧
  decode 0x1342300000000000#64 = .ok (.withRtr 4 2 3) ∧
  decode 0x2054000000000000#64 = .ok (.toId 5 4) ∧
  decode 0x30FFE00000000000#64 = .ok (.cmp 15 15 14)

/-! ## The step and the run -/

/-- Where no fault is recorded and the word at pc decodes to a command, the step is that command's rule and nothing else
(R131, decisions D6, D14, D15). -/
def Obligations.StepRunsDecodedCommand : Prop :=
  ∀ (s : State) (w : CmdWord) (i : Instr),
    s.fault = none → s.prog[s.pc]? = some w → decode w = .ok i → step s = exec i s

/-- A word placed for the next fetch is decoded and run by the very next step, on a state whose slots and pc are as
before. The placing is the model's own (notes/assumptions/6.md). -/
def Obligations.PlacedWordIsRunNext : Prop :=
  ∀ (s : State) (nbits w : Nat) (i : Instr), decodeTableWord nbits w = some i →
    step (s.withFetchWord nbits w) = exec i (s.withFetchWord nbits w) ∧
    (s.withFetchWord nbits w).x = s.x ∧ (s.withFetchWord nbits w).pc = s.pc

/-- R132 (decision D6): the states that have ended normally or in a fault have no step, every other state whose pc is
inside the program has one (that pc is at most N is R31's), and a program of N commands reaches one of the two ends in at
most N steps. The answer `fault` that the model gives where the spec has no step is its own choice
(notes/assumptions/2.md); the statement says only that there is no next state. -/
def Obligations.EveryRunEndsWithinItsLength : Prop :=
  (∀ s : State, EndedNormally s ∨ EndedInFault s → ∀ t, step s ≠ .next t) ∧
  (∀ s : State, s.pc ≤ s.prog.length → ¬ EndedNormally s → ¬ EndedInFault s → ∃ t, step s = .next t) ∧
  (∀ prog : List CmdWord, ∃ k t, k ≤ prog.length ∧ Sys2Proof.core.run k (launch prog) = .next t ∧
    (EndedNormally t ∨ EndedInFault t))

/-- R31 (decision D6): the command that a step executes is the one pc indexes; a command that completes sets pc to pc + 1,
a faulting one leaves it, no step takes pc past N, and at pc = N there is no step. -/
def Obligations.PcAdvancesByOneOrStays : Prop :=
  (∀ s t : State, step s = .next t → ∃ w, s.prog[s.pc]? = some w ∧
    ((∃ e, decode w = .error e) ∨ (∃ i, decode w = .ok i ∧ exec i s = .next t))) ∧
  (∀ s t : State, step s = .next t → t.fault = none → t.pc = s.pc + 1) ∧
  (∀ s t : State, step s = .next t → t.fault ≠ none → t.pc = s.pc) ∧
  (∀ s t : State, step s = .next t → t.pc ≤ t.prog.length) ∧
  (∀ s : State, s.pc = s.prog.length → ∀ t, step s ≠ .next t)

/-- Commands run in program order, each exactly once: after k steps of a launched program with no fault, pc is k. Derived
from R133 (decision D6). -/
def Obligations.CommandsRunInProgramOrder : Prop :=
  ∀ (prog : List CmdWord) (k : Nat) (t : State),
    Sys2Proof.core.run k (launch prog) = .next t → t.fault = none → t.pc = k

/-- R48 (decision D6): no command writes `prog`, and it is immutable for the whole run. -/
def Obligations.ProgramIsImmutable : Prop :=
  (∀ (i : Instr) (s t : State), exec i s = .next t → t.prog = s.prog) ∧
  (∀ (s : State) (k : Nat) (t : State), Sys2Proof.core.run k s = .next t → t.prog = s.prog)

/-- The invariant of the harness (State.wf: pc at most N, R31; a recorded fault is that of the command at pc, R141, R142,
and has the shape of R143) is kept by every step. -/
def Obligations.StepKeepsHarnessInvariant : Prop :=
  ∀ s t : State, s.wf → step s = .next t → t.wf

/-- The invariant holds after reset, after a launch with any program, and after a reset of any state. -/
def Obligations.ResetMeetsHarnessInvariant : Prop :=
  State.reset.wf ∧ (∀ prog, (launch prog).wf) ∧ (∀ s, (resetHarness s).wf)

/-- R160 (decision D20): reset leaves every slot `Unwritten`, pc 0 and no fault, and the program unchanged. That
`State.reset` itself holds the empty program is the model's choice (notes/assumptions/6.md) and is not stated here. -/
def Obligations.ResetLeavesSlotsUnwritten : Prop :=
  (∀ n : SlotIdx, State.reset.x[n] = .unwritten) ∧ State.reset.pc = 0 ∧ State.reset.fault = none ∧
  (∀ prog (n : SlotIdx), (launch prog).x[n] = .unwritten ∧ (launch prog).pc = 0 ∧ (launch prog).fault = none ∧
    (launch prog).prog = prog) ∧
  (∀ s (n : SlotIdx), (resetHarness s).x[n] = .unwritten ∧ (resetHarness s).pc = 0 ∧ (resetHarness s).fault = none ∧
    (resetHarness s).prog = s.prog)

/-- A slot is written only by an earlier command of the same run that names it as its destination. Derived from R160 and
R161, which the spec itself derives. -/
def Obligations.WrittenSlotWasWrittenByEarlierCommand : Prop :=
  ∀ (prog : List CmdWord) (k : Nat) (t : State) (n : SlotIdx) (v : Word),
    Sys2Proof.core.run k (launch prog) = .next t → t.x[n] = .written v →
    ∃ (j : Nat) (w : CmdWord) (i : Instr),
      j < t.pc ∧ prog[j]? = some w ∧ decode w = .ok i ∧ destination i = n

/-! ## Frames and purity -/

/-- The frame of every command: only its destination slot may change, the program never does, and it either completes
(pc moves on, no fault is recorded) or raises (no slot and no pc changes, and the record is of this command). Derived from
R30, R31, R98(e), R131, R142. -/
def Obligations.CommandChangesOnlyItsDestination : Prop :=
  ∀ (i : Instr) (s t : State), exec i s = .next t →
    (∀ n : SlotIdx, n ≠ destination i → t.x[n] = s.x[n]) ∧ t.prog = s.prog ∧
    ((t.pc = s.pc + 1 ∧ t.fault = s.fault ∧ ∃ v, t.x[destination i] = .written v) ∨
     (t.x = s.x ∧ t.pc = s.pc ∧ ∃ r, t.fault = some r ∧ r.pc = s.pc ∧ r.w = encode i))

/-- Every command is a pure function of its source slots: two states that agree on them, whatever else they hold, both
complete with the same word in rd or both raise the same code, field and value. Derived from R28, R44, R46. -/
def Obligations.ResultDependsOnlyOnSources : Prop :=
  ∀ (i : Instr) (s s' t t' : State), (∀ p ∈ sources i, s.x[p.2] = s'.x[p.2]) → s.fault = none → s'.fault = none →
    exec i s = .next t → exec i s' = .next t' →
    (t.fault = none ∧ t'.fault = none ∧ t.x[destination i] = t'.x[destination i]) ∨
    (∃ r r', t.fault = some r ∧ t'.fault = some r' ∧ r.code = r'.code ∧ r.field = r'.field ∧ r.value = r'.value)

/-- A slot read sees the latest write: the completed command's word in its destination, every other slot as before.
Derived from R30 and R46 (decisions D2, D19). -/
def Obligations.SlotReadSeesLatestWrite : Prop :=
  ∀ (s : State) (rd n : SlotIdx) (v : Word) (f : SrcField),
    readSlot (complete s rd v) f n = if n = rd then .ok v else readSlot s f n

/-! ## Faults -/

/-- R142 (decision D15): a faulting command writes no slot and does not advance pc; every earlier command has completed
and no later one has started, so a launched run records its fault in exactly the step after those of the earlier commands.
The record names the command at pc and its word (R141). -/
def Obligations.FaultsArePrecise : Prop :=
  (∀ (s t : State) (r : FaultRecord), step s = .next t → t.fault = some r →
    t.x = s.x ∧ t.pc = s.pc ∧ t.prog = s.prog ∧ r.pc = s.pc ∧ s.prog[s.pc]? = some r.w) ∧
  (∀ (prog : List CmdWord) (k : Nat) (t : State) (r : FaultRecord),
    Sys2Proof.core.run k (launch prog) = .next t → t.fault = some r → k = r.pc + 1 ∧ t.pc = r.pc)

/-- A recorded fault ends the run and no step clears it; reset does. Derived from R141, R145, R146, R160 (decision D15):
there is no trap entry and no return. -/
def Obligations.OnlyResetClearsFault : Prop :=
  (∀ (s : State) (r : FaultRecord), s.fault = some r →
    ∀ k t, Sys2Proof.core.run k s = .next t → k = 0 ∧ t = s) ∧
  (∀ s : State, (resetHarness s).fault = none)

/-- Derived from R143 (decisions D5, D10, D12): the numbers of the codes, and for a fault that is raised which command
raised it, on what cause, and which field and value are recorded. That a cause raises its fault is stated with the commands
and with R144. -/
def Obligations.FaultCodesFollowTheirTable : Prop :=
  (faultNumber .illegalCommand = 1 ∧ faultNumber .unwrittenSlot = 2 ∧ faultNumber .stdRange = 3 ∧
    faultNumber .extRange = 4 ∧ faultNumber .rawRange = 5 ∧ faultNumber .tagValue = 6) ∧
  (∀ (s : State) (w : CmdWord) (e : Illegal),
    s.fault = none → s.prog[s.pc]? = some w → decode w = .error e →
    step s = .next { s with fault := some ⟨.illegalCommand, s.pc, w, none, none⟩ }) ∧
  (∀ (i : Instr) (s t : State) (r : FaultRecord), s.fault = none → exec i s = .next t → t.fault = some r →
    match r.code with
    | .illegalCommand => False
    | .unwrittenSlot =>
      ∃ p ∈ sources i, s.x[p.2] = .unwritten ∧ r.field = some p.1 ∧ r.value = none
    | .stdRange =>
      ∃ rd rs1 v, i = .newStd rd rs1 ∧ s.x[rs1] = .written v ∧ 0x7FF#32 < v ∧ r.field = some .rs1 ∧ r.value = some v
    | .extRange =>
      ∃ rd rs1 v, i = .newExt rd rs1 ∧ s.x[rs1] = .written v ∧ 0x1FFFFFFF#32 < v ∧ r.field = some .rs1 ∧
        r.value = some v
    | .rawRange =>
      ∃ rd rs1 rs2 rs3 v, i = .fromReg rd rs1 rs2 rs3 ∧ s.x[rs1] = .written v ∧ v.extractLsb' 29 3 ≠ 0 ∧
        r.field = some .rs1 ∧ r.value = some v
    | .tagValue =>
      (∃ rd rs1 rs2 rs3 v, i = .fromReg rd rs1 rs2 rs3 ∧
        ((s.x[rs2] = .written v ∧ r.field = some .rs2) ∨ (s.x[rs3] = .written v ∧ r.field = some .rs3)) ∧
        v ≠ 0 ∧ v ≠ 1 ∧ r.value = some v) ∨
      (∃ rd rs1 rs2 v, i = .withRtr rd rs1 rs2 ∧ s.x[rs2] = .written v ∧ r.field = some .rs2 ∧
        v ≠ 0 ∧ v ≠ 1 ∧ r.value = some v))

/-- R144 (decision D14): the fault that is reported when several apply. An illegal word first, whatever the slots hold;
then the first unwritten source in the order rs1, rs2, rs3, whatever the values; then the value checks in operand order,
which for ID.FROM_REG are the raw range, the tag in rs2 and the tag in rs3. -/
def Obligations.FirstFaultInPriorityOrderIsReported : Prop :=
  (∀ (s : State) (w : CmdWord) (e : Illegal),
    s.fault = none → s.prog[s.pc]? = some w → decode w = .error e →
    step s = .next { s with fault := some ⟨.illegalCommand, s.pc, w, none, none⟩ }) ∧
  (∀ (i : Instr) (s : State) (before after : List (SrcField × SlotIdx)) (f : SrcField) (n : SlotIdx),
    sources i = before ++ (f, n) :: after → (∀ p ∈ before, s.x[p.2] ≠ .unwritten) → s.x[n] = .unwritten →
    exec i s = .next { s with fault := some ⟨.unwrittenSlot, s.pc, encode i, some f, none⟩ }) ∧
  (∀ (s : State) (rd rs1 rs2 rs3 : SlotIdx) (raw k t : Word),
    s.x[rs1] = .written raw → s.x[rs2] = .written k → s.x[rs3] = .written t →
    (raw.extractLsb' 29 3 ≠ 0 → exec (.fromReg rd rs1 rs2 rs3) s =
      .next { s with fault := some ⟨.rawRange, s.pc, encode (.fromReg rd rs1 rs2 rs3), some .rs1, some raw⟩ }) ∧
    (raw.extractLsb' 29 3 = 0 → k ≠ 0 → k ≠ 1 → exec (.fromReg rd rs1 rs2 rs3) s =
      .next { s with fault := some ⟨.tagValue, s.pc, encode (.fromReg rd rs1 rs2 rs3), some .rs2, some k⟩ }) ∧
    (raw.extractLsb' 29 3 = 0 → (k = 0 ∨ k = 1) → t ≠ 0 → t ≠ 1 → exec (.fromReg rd rs1 rs2 rs3) s =
      .next { s with fault := some ⟨.tagValue, s.pc, encode (.fromReg rd rs1 rs2 rs3), some .rs3, some t⟩ }))

/-! ## The commands: what each does, and that nothing else changes -/

/-- R130 (decisions D3, D4): LI writes its literal into rd, whether or not rd was written before, and goes on; nothing
else changes. -/
def Obligations.LiWritesLiteral : Prop :=
  ∀ (s : State) (rd : SlotIdx) (imm : Word),
    exec (.li rd imm) s = .next { s with x := s.x.set rd (.written imm), pc := s.pc + 1 }

/-- R70 and R71: ID.NEW_STD places the 11 bits at bit 18 with every other bit clear, faults on a word above 0x7FF, and
faults on an unwritten source. That r[31] is 0 is the spec's decision D8 (notes/assumptions/11.md); that an out-of-range
word faults is its decision D10. -/
def Obligations.NewStdPlacesIdAtBit18 : Prop :=
  ∀ (s : State) (rd rs1 : SlotIdx),
    (∀ v, s.x[rs1] = .written v → v ≤ 0x7FF#32 → exec (.newStd rd rs1) s =
      .next { s with x := s.x.set rd (.written ((v.extractLsb' 0 11).setWidth 32 <<< 18)), pc := s.pc + 1 }) ∧
    (∀ v, s.x[rs1] = .written v → 0x7FF#32 < v → exec (.newStd rd rs1) s =
      .next { s with fault := some ⟨.stdRange, s.pc, encode (.newStd rd rs1), some .rs1, some v⟩ }) ∧
    (s.x[rs1] = .unwritten → exec (.newStd rd rs1) s =
      .next { s with fault := some ⟨.unwrittenSlot, s.pc, encode (.newStd rd rs1), some .rs1, none⟩ })

/-- R72 and R73: ID.NEW_EXT places the 29 bits at bit 0 and sets bit 30, faults on a word above 0x1FFFFFFF, and faults on
an unwritten source. That r[31] is 0 is the spec's decision D8 (notes/assumptions/11.md); the fault is its decision D10. -/
def Obligations.NewExtPlacesIdAtBit0 : Prop :=
  ∀ (s : State) (rd rs1 : SlotIdx),
    (∀ v, s.x[rs1] = .written v → v ≤ 0x1FFFFFFF#32 → exec (.newExt rd rs1) s =
      .next { s with
        x := s.x.set rd (.written ((v.extractLsb' 0 29).setWidth 32 ||| 0x40000000#32)), pc := s.pc + 1 }) ∧
    (∀ v, s.x[rs1] = .written v → 0x1FFFFFFF#32 < v → exec (.newExt rd rs1) s =
      .next { s with fault := some ⟨.extRange, s.pc, encode (.newExt rd rs1), some .rs1, some v⟩ }) ∧
    (s.x[rs1] = .unwritten → exec (.newExt rd rs1) s =
      .next { s with fault := some ⟨.unwrittenSlot, s.pc, encode (.newExt rd rs1), some .rs1, none⟩ })

/-- R74 and R75: ID.FROM_REG combines the raw bits as given with the two flags. Every raw word with bits 31..29 zero is
admitted, whatever the XTD indicator (decisions D10, D11; C2); any other raw word faults, and so does a tag that is neither
0 nor 1 (decision D12), in operand order, after the check for unwritten sources. That r[31] is 0 is the spec's decision D8
(notes/assumptions/11.md). -/
def Obligations.FromRegCombinesRawBitsAndFlags : Prop :=
  ∀ (s : State) (rd rs1 rs2 rs3 : SlotIdx),
    let faulty := fun (code : FaultCode) (field : SrcField) (value : Option Word) =>
      { s with fault := some ⟨code, s.pc, encode (.fromReg rd rs1 rs2 rs3), some field, value⟩ }
    (∀ raw k t : Word, s.x[rs1] = .written raw → s.x[rs2] = .written k → s.x[rs3] = .written t →
      (raw.extractLsb' 29 3 = 0 → (k = 0 ∨ k = 1) → (t = 0 ∨ t = 1) → exec (.fromReg rd rs1 rs2 rs3) s =
        .next { s with x := s.x.set rd (.written (raw ||| (k <<< 29) ||| (t <<< 30))), pc := s.pc + 1 }) ∧
      (raw.extractLsb' 29 3 ≠ 0 → exec (.fromReg rd rs1 rs2 rs3) s = .next (faulty .rawRange .rs1 (some raw))) ∧
      (raw.extractLsb' 29 3 = 0 → k ≠ 0 → k ≠ 1 →
        exec (.fromReg rd rs1 rs2 rs3) s = .next (faulty .tagValue .rs2 (some k))) ∧
      (raw.extractLsb' 29 3 = 0 → (k = 0 ∨ k = 1) → t ≠ 0 → t ≠ 1 →
        exec (.fromReg rd rs1 rs2 rs3) s = .next (faulty .tagValue .rs3 (some t)))) ∧
    (s.x[rs1] = .unwritten → exec (.fromReg rd rs1 rs2 rs3) s = .next (faulty .unwrittenSlot .rs1 none)) ∧
    (∀ raw, s.x[rs1] = .written raw → s.x[rs2] = .unwritten →
      exec (.fromReg rd rs1 rs2 rs3) s = .next (faulty .unwrittenSlot .rs2 none)) ∧
    (∀ raw k, s.x[rs1] = .written raw → s.x[rs2] = .written k → s.x[rs3] = .unwritten →
      exec (.fromReg rd rs1 rs2 rs3) s = .next (faulty .unwrittenSlot .rs3 none))

/-- R76: ID.WITH_RTR sets or clears bit 29 and keeps every other bit, for every 32-bit register value; it faults on a
second operand that is neither 0 nor 1 (decision D12), and on an unwritten source, rs1 before rs2. -/
def Obligations.WithRtrSetsOrClearsBit29 : Prop :=
  ∀ (s : State) (rd rs1 rs2 : SlotIdx),
    (∀ r, s.x[rs1] = .written r → s.x[rs2] = .written 1 → exec (.withRtr rd rs1 rs2) s =
      .next { s with x := s.x.set rd (.written (r ||| 0x20000000#32)), pc := s.pc + 1 }) ∧
    (∀ r, s.x[rs1] = .written r → s.x[rs2] = .written 0 → exec (.withRtr rd rs1 rs2) s =
      .next { s with x := s.x.set rd (.written (r &&& ~~~0x20000000#32)), pc := s.pc + 1 }) ∧
    (∀ r b, s.x[rs1] = .written r → s.x[rs2] = .written b → b ≠ 0 → b ≠ 1 → exec (.withRtr rd rs1 rs2) s =
      .next { s with fault := some ⟨.tagValue, s.pc, encode (.withRtr rd rs1 rs2), some .rs2, some b⟩ }) ∧
    (s.x[rs1] = .unwritten → exec (.withRtr rd rs1 rs2) s =
      .next { s with fault := some ⟨.unwrittenSlot, s.pc, encode (.withRtr rd rs1 rs2), some .rs1, none⟩ }) ∧
    (∀ r, s.x[rs1] = .written r → s.x[rs2] = .unwritten → exec (.withRtr rd rs1 rs2) s =
      .next { s with fault := some ⟨.unwrittenSlot, s.pc, encode (.withRtr rd rs1 rs2), some .rs2, none⟩ })

/-- R90: ID.TO_ID reads the field that bit 30 selects, masked, and writes it as an Id word of R27 (decision D7); it faults
on an unwritten source only. -/
def Obligations.ToIdReadsTheActiveField : Prop :=
  ∀ (s : State) (rd rs1 : SlotIdx),
    (∀ r, s.x[rs1] = .written r → r.getLsbD 30 = true → exec (.toId rd rs1) s =
      .next { s with x := s.x.set rd (.written (0x80000000#32 ||| (r &&& 0x1FFFFFFF#32))), pc := s.pc + 1 }) ∧
    (∀ r, s.x[rs1] = .written r → r.getLsbD 30 = false → exec (.toId rd rs1) s =
      .next { s with x := s.x.set rd (.written ((r &&& 0x1FFC0000#32) >>> 18)), pc := s.pc + 1 }) ∧
    (s.x[rs1] = .unwritten → exec (.toId rd rs1) s =
      .next { s with fault := some ⟨.unwrittenSlot, s.pc, encode (.toId rd rs1), some .rs1, none⟩ })

/-- R92, R93, R94: ID.IS_EXT, ID.IS_STD and ID.IS_RTR write bit 30, 1 minus bit 30 and bit 29, for every 32-bit word; each
faults on an unwritten source only. -/
def Obligations.FlagQueriesReadOneBit : Prop :=
  ∀ (s : State) (rd rs1 : SlotIdx),
    (∀ r, s.x[rs1] = .written r →
      exec (.isExt rd rs1) s =
        .next { s with x := s.x.set rd (.written ((r.extractLsb' 30 1).setWidth 32)), pc := s.pc + 1 } ∧
      exec (.isStd rd rs1) s =
        .next { s with x := s.x.set rd (.written (1#32 - (r.extractLsb' 30 1).setWidth 32)), pc := s.pc + 1 } ∧
      exec (.isRtr rd rs1) s =
        .next { s with x := s.x.set rd (.written ((r.extractLsb' 29 1).setWidth 32)), pc := s.pc + 1 }) ∧
    (s.x[rs1] = .unwritten →
      exec (.isExt rd rs1) s =
        .next { s with fault := some ⟨.unwrittenSlot, s.pc, encode (.isExt rd rs1), some .rs1, none⟩ } ∧
      exec (.isStd rd rs1) s =
        .next { s with fault := some ⟨.unwrittenSlot, s.pc, encode (.isStd rd rs1), some .rs1, none⟩ } ∧
      exec (.isRtr rd rs1) s =
        .next { s with fault := some ⟨.unwrittenSlot, s.pc, encode (.isRtr rd rs1), some .rs1, none⟩ })

/-- R95: ID.RAW_ID writes bits 28..0 whatever bit 30 is, for every 32-bit word; it faults on an unwritten source only. -/
def Obligations.RawIdMasksTo29Bits : Prop :=
  ∀ (s : State) (rd rs1 : SlotIdx),
    (∀ r, s.x[rs1] = .written r → exec (.rawId rd rs1) s =
      .next { s with x := s.x.set rd (.written (r &&& 0x1FFFFFFF#32)), pc := s.pc + 1 }) ∧
    (s.x[rs1] = .unwritten → exec (.rawId rd rs1) s =
      .next { s with fault := some ⟨.unwrittenSlot, s.pc, encode (.rawId rd rs1), some .rs1, none⟩ })

/-- R96 and R97: ID.ID_TYPE and ID.FRAME_KIND write the tag of bit 30 and of bit 29, 1 for Extended and for Remote
(decision D7), for every 32-bit word; each faults on an unwritten source only. The tag of `to_id(r)` is `id_type(r)`. -/
def Obligations.TypeTagsReadTheirFlag : Prop :=
  (∀ r : Reg, (toId r).type = idType r) ∧
  ∀ (s : State) (rd rs1 : SlotIdx),
    (∀ r, s.x[rs1] = .written r →
      exec (.idType rd rs1) s =
        .next { s with x := s.x.set rd (.written (if r.getLsbD 30 then 1#32 else 0#32)), pc := s.pc + 1 } ∧
      exec (.frameKind rd rs1) s =
        .next { s with x := s.x.set rd (.written (if r.getLsbD 29 then 1#32 else 0#32)), pc := s.pc + 1 }) ∧
    (s.x[rs1] = .unwritten →
      exec (.idType rd rs1) s =
        .next { s with fault := some ⟨.unwrittenSlot, s.pc, encode (.idType rd rs1), some .rs1, none⟩ } ∧
      exec (.frameKind rd rs1) s =
        .next { s with fault := some ⟨.unwrittenSlot, s.pc, encode (.frameKind rd rs1), some .rs1, none⟩ })

/-- R110: ID.CMP writes the Ordering word of `cmp(a, b)`, a from rs1 and b from rs2 (decisions D7, D22), for every two
words; it faults on an unwritten source only, rs1 before rs2. `cmp` itself is stated with R111. -/
def Obligations.CmpWritesOrderingWord : Prop :=
  ∀ (s : State) (rd rs1 rs2 : SlotIdx),
    (∀ a b, s.x[rs1] = .written a → s.x[rs2] = .written b → exec (.cmp rd rs1 rs2) s =
      .next { s with
        x := s.x.set rd (.written (match Machine.cmp ⟨a⟩ ⟨b⟩ with
          | .lt => 0xFFFFFFFF#32
          | .eq => 0x00000000#32
          | .gt => 0x00000001#32))
        pc := s.pc + 1 }) ∧
    (s.x[rs1] = .unwritten → exec (.cmp rd rs1 rs2) s =
      .next { s with fault := some ⟨.unwrittenSlot, s.pc, encode (.cmp rd rs1 rs2), some .rs1, none⟩ }) ∧
    (∀ a, s.x[rs1] = .written a → s.x[rs2] = .unwritten → exec (.cmp rd rs1 rs2) s =
      .next { s with fault := some ⟨.unwrittenSlot, s.pc, encode (.cmp rd rs1 rs2), some .rs2, none⟩ })

/-! ## The laws of the register value -/

/-- What a constructor leaves: bit 31 clear in every result of NEW_STD, NEW_EXT and FROM_REG, kept by WITH_RTR, and bits
17..0 clear in every result of NEW_STD. Derived from R24(b), R24(c), which the spec derives; r[31] = 0 is its decision D8
(notes/assumptions/11.md). -/
def Obligations.ConstructorsClearUnplacedBits : Prop :=
  (∀ s, (newStd s).bits.getLsbD 31 = false ∧ (newStd s).bits.extractLsb' 0 18 = 0) ∧
  (∀ e, (newExt e).bits.getLsbD 31 = false) ∧
  (∀ raw k t, (fromReg raw k t).bits.getLsbD 31 = false) ∧
  (∀ r b, (withRtr r b).bits.getLsbD 31 = r.bits.getLsbD 31)

/-- The laws of WITH_RTR, for every register value: the identifier and XTD are kept, the last value set wins, and setting
the flag to what it is changes nothing. Derived from R77, which the spec derives (C3). -/
def Obligations.WithRtrKeepsIdentifier : Prop :=
  ∀ (r : Reg) (b c : Bool),
    toId (withRtr r b) = toId r ∧ xtd (withRtr r b) = xtd r ∧ rtr (withRtr r b) = b ∧
    withRtr (withRtr r b) c = withRtr r c ∧ withRtr r (rtr r) = r

/-- The reconstruction laws, as bitwise equalities. Derived from R78, which the spec derives. -/
def Obligations.FromRegReconstructs : Prop :=
  (∀ (s : StdId) (k : FrameKind),
    fromReg ⟨s.bits.setWidth 29 <<< 18⟩ k .standard = withRtr (newStd s) (decide (k = .remote))) ∧
  (∀ (e : ExtId) (k : FrameKind), fromReg ⟨e.bits⟩ k .extended = withRtr (newExt e) (decide (k = .remote))) ∧
  (∀ r : Reg, r.bits.getLsbD 31 = false → fromReg (rawId r) (frameKind r) (idType r) = r)

/-- The extraction laws: the round trip, the reconstruction property and the masking property. Derived from R91, which the
spec derives. -/
def Obligations.ToIdRecoversTheIdentifier : Prop :=
  (∀ s, toId (newStd s) = .standard s) ∧
  (∀ e, toId (newExt e) = .extended e) ∧
  (∀ (s : StdId) k, toId (fromReg ⟨s.bits.setWidth 29 <<< 18⟩ k .standard) = .standard s) ∧
  (∀ (e : ExtId) k, toId (fromReg ⟨e.bits⟩ k .extended) = .extended e) ∧
  (∀ (raw : RawId) k, toId (fromReg raw k .standard) = .standard ⟨raw.bits.extractLsb' 18 11⟩)

/-- The laws of the query family for every register value. Derived from R98(a) to R98(d), which the spec derives. -/
def Obligations.QueriesAgreeWithEachOther : Prop :=
  ∀ r : Reg,
    isStd r = !isExt r ∧ encIdType (idType r) = encBool (isExt r) ∧ encFrameKind (frameKind r) = encBool (isRtr r) ∧
    encRawId (rawId r) = r.bits &&& 0x1FFFFFFF#32 ∧ (xtd r = true → toId r = .extended ⟨(rawId r).bits⟩)

/-- No read of the identifier or of a flag depends on a don't-care bit: two register values that agree on bits 28..18, 29
and 30, and on bits 17..0 where bit 30 is set, answer every query but RAW_ID alike and compare alike against everything;
and RAW_ID depends on bits 28..0 alone. Derived from R15, R23, R91(d), R95, R116 (decision D9; R164 names RAW_ID's
exception). -/
def Obligations.DontCareBitsAreIgnored : Prop :=
  (∀ r r' : Reg,
    r.bits.extractLsb' 18 13 = r'.bits.extractLsb' 18 13 →
    (r.bits.getLsbD 30 = true → r.bits.extractLsb' 0 18 = r'.bits.extractLsb' 0 18) →
    toId r = toId r' ∧ isExt r = isExt r' ∧ isStd r = isStd r' ∧ isRtr r = isRtr r' ∧ idType r = idType r' ∧
    frameKind r = frameKind r' ∧ (∀ b, Machine.cmp r b = Machine.cmp r' b) ∧
    (∀ b, Machine.cmp b r = Machine.cmp b r')) ∧
  (∀ r r' : Reg, r.bits.extractLsb' 0 29 = r'.bits.extractLsb' 0 29 → rawId r = rawId r')

/-- The slot encodings lose nothing: no two values of one type have the same slot word. Derived from R27 (decisions D7,
D12). -/
def Obligations.SlotEncodingsLoseNothing : Prop :=
  Function.Injective encReg ∧ Function.Injective encStdId ∧ Function.Injective encExtId ∧
  Function.Injective encRawId ∧ Function.Injective encBool ∧ Function.Injective encIdType ∧
  Function.Injective encFrameKind ∧ Function.Injective encId ∧ Function.Injective encOrdering

/-! ## Arbitration -/

/-- R111 on the bits of the words: within one identifier type the smaller identifier is Greater and a data frame breaks a
tie; across types the standard identifier is compared with bits 28..18 of the extended word and wins a tie. -/
def Obligations.CmpFollowsArbitration : Prop :=
  ∀ a b : Reg,
    let aStd := a.bits.extractLsb' 18 11
    let bStd := b.bits.extractLsb' 18 11
    let aExt := a.bits.extractLsb' 0 29
    let bExt := b.bits.extractLsb' 0 29
    let byFrame : Ordering :=
      if a.bits.getLsbD 29 = b.bits.getLsbD 29 then .eq else if a.bits.getLsbD 29 then .lt else .gt
    (a.bits.getLsbD 30 = false → b.bits.getLsbD 30 = false →
      (aStd < bStd → Machine.cmp a b = .gt) ∧ (bStd < aStd → Machine.cmp a b = .lt) ∧
      (aStd = bStd → Machine.cmp a b = byFrame)) ∧
    (a.bits.getLsbD 30 = true → b.bits.getLsbD 30 = true →
      (aExt < bExt → Machine.cmp a b = .gt) ∧ (bExt < aExt → Machine.cmp a b = .lt) ∧
      (aExt = bExt → Machine.cmp a b = byFrame)) ∧
    (a.bits.getLsbD 30 = false → b.bits.getLsbD 30 = true →
      (aStd ≤ bStd → Machine.cmp a b = .gt) ∧ (bStd < aStd → Machine.cmp a b = .lt)) ∧
    (a.bits.getLsbD 30 = true → b.bits.getLsbD 30 = false →
      (aStd < bStd → Machine.cmp a b = .gt) ∧ (bStd ≤ aStd → Machine.cmp a b = .lt))

/-- R113: where the identifier types differ, the RTR bits of both operands are ignored, and at equal base ID the standard
operand wins whatever either frame kind is; the frame kind decides only between equal identifiers of one type. -/
def Obligations.CrossTypeNeverReadsRtr : Prop :=
  (∀ (a b : Reg) (k l : Bool), idType a ≠ idType b →
    Machine.cmp (withRtr a k) (withRtr b l) = Machine.cmp a b) ∧
  (∀ (a b : Reg), idType a = .standard → idType b = .extended →
    a.bits.extractLsb' 18 11 = b.bits.extractLsb' 18 11 → Machine.cmp a b = .gt ∧ Machine.cmp b a = .lt) ∧
  (∀ (a b : Reg) (k l : Bool), idType a = idType b → toId a ≠ toId b →
    Machine.cmp (withRtr a k) (withRtr b l) = Machine.cmp a b)

/-- The key form: `cmp` is the reversed lexicographic order of the 4-tuple keys. Derived from R114, which the spec
derives. -/
def Obligations.CmpIsReversedKeyOrder : Prop :=
  ∀ a b : Reg, Machine.cmp a b = Machine.reverse (lexCompare (priorityKey a) (priorityKey b))

/-- `cmp` is a total preorder on all 2^32 words, with the strict part and the equal part both transitive. Derived from
R115, which the spec derives. -/
def Obligations.CmpIsTotalPreorder : Prop :=
  (∀ a, Machine.cmp a a = .eq) ∧
  (∀ a b, Machine.cmp b a = Machine.reverse (Machine.cmp a b)) ∧
  (∀ a b c, Machine.cmp a b = .lt → Machine.cmp b c = .lt → Machine.cmp a c = .lt) ∧
  (∀ a b c, Machine.cmp a b = .eq → Machine.cmp b c = .eq → Machine.cmp a c = .eq) ∧
  (∀ a b c, Machine.cmp a b = .eq → Machine.cmp a c = Machine.cmp b c)

/-- Equality under the order: same type, same identifier, same RTR bit; it is coarser than bitwise equality. Derived from
R116, which the spec derives (decision D13). -/
def Obligations.CmpEqualMeansSameFrameIdentity : Prop :=
  (∀ a b : Reg, Machine.cmp a b = .eq ↔
    idType a = idType b ∧ toId a = toId b ∧ a.bits.getLsbD 29 = b.bits.getLsbD 29) ∧
  (∃ a b : Reg, a ≠ b ∧ Machine.cmp a b = .eq)

/-- Among a finite non-empty set of contending values there is a winner, and it is unique up to the equality of the order.
Derived from R117, which the spec derives. -/
def Obligations.ArbitrationHasOneWinner : Prop :=
  (∀ contenders : List Reg, contenders ≠ [] → ∃ r, IsWinner contenders r) ∧
  (∀ (contenders : List Reg) (r r' : Reg), IsWinner contenders r → IsWinner contenders r' → Machine.cmp r r' = .eq)

/-! ## The boundary of the block -/

/-- A register value laid out in bytes is read back, in either byte order and in the open one; the two orders are each
other's reverse. Derived from R42 (decision D17 leaves the order OPEN; the layout is the model's, notes/assumptions/10.md). -/
def Obligations.SerialisedRegisterIsReadBack : Prop :=
  (∀ (order : ByteOrder) (r : Reg), regOfBytes order (regToBytes order r) = some r) ∧
  (∀ r : Reg, regOfBytes Config.regByteOrder (serialise r) = some r ∧ (serialise r).length = 4) ∧
  (∀ r : Reg, regToBytes .big r = (regToBytes .little r).reverse)

/-- Assembling the listing of a command gives the command, for every command and every operand. Derived from R59, R60
(decision D3); the spelling of the listing is the model's (notes/assumptions/12.md). -/
def Obligations.AssemblerReadsItsListing : Prop :=
  ∀ i : Instr, assembleLine (listing i) = some (some i)
end

