-- ==== Sys2Proof/Laws/Decode.lean ====
section
/-! SUPPORT. The lemmas of the decoder and the encoder: cutting a word into fields and putting it together are inverse,
and what the check of the unused fields does. -/

namespace Sys2Proof

@[simp] theorem slotOfField_fieldOfSlot (n : SlotIdx) : slotOfField (fieldOfSlot n) = n := rfl

@[simp] theorem fieldOfSlot_slotOfField (b : BitVec 4) : fieldOfSlot (slotOfField b) = b := rfl

/-- Cutting a word that was put together gives back its fields. -/
theorem Fields.ofWord_toWord (f : Fields) : Fields.ofWord f.toWord = f := by
  obtain ⟨op, rd, rs1, rs2, rs3, res, imm⟩ := f
  simp only [Fields.ofWord, Fields.toWord, Fields.mk.injEq]
  refine ⟨?_, ?_, ?_, ?_, ?_, ?_, ?_⟩ <;>
  · apply BitVec.eq_of_getLsbD_eq
    intro k hk
    simp only [BitVec.getLsbD_extractLsb', BitVec.getLsbD_append, hk, decide_true, Bool.true_and]
    repeat' split
    all_goals first
      | omega
      | (congr 1; omega)

/-- Putting a word's fields together gives back the word. -/
theorem Fields.toWord_ofWord (w : CmdWord) : (Fields.ofWord w).toWord = w := by
  apply BitVec.eq_of_getLsbD_eq
  intro k hk
  simp only [Fields.ofWord, Fields.toWord, BitVec.getLsbD_extractLsb', BitVec.getLsbD_append]
  repeat' split
  all_goals
    rw [decide_eq_true (by omega), Bool.true_and]
    congr 1
    omega

/-- No bad field is what the format's check asks for. -/
theorem Fields.badField_eq_none (f : Fields) (fmt : Format) :
    f.badField fmt = none ↔ f.wellFormed fmt = true := by
  simp [Fields.badField, Fields.wellFormed, List.find?_eq_none, List.all_eq_true]

/-- The check passes: the command is the one given. -/
theorem Fields.require_ok (f : Fields) (fmt : Format) (i j : Instr) :
    f.require fmt i = .ok j ↔ f.wellFormed fmt = true ∧ i = j := by
  rw [← Fields.badField_eq_none]
  unfold Fields.require
  split <;> simp_all

/-- The check fails by naming a field that is not zero. -/
theorem Fields.require_error (f : Fields) (fmt : Format) (i : Instr) :
    (∃ e, f.require fmt i = .error e) ↔ f.wellFormed fmt = false := by
  rw [← Bool.not_eq_true, ← Fields.badField_eq_none]
  unfold Fields.require
  split <;> simp_all

@[simp] theorem Fields.wellFormed_L (f : Fields) :
    f.wellFormed .L = true ↔ f.rs1 = 0 ∧ f.rs2 = 0 ∧ f.rs3 = 0 ∧ f.res = 0 := by
  simp [Fields.wellFormed, Format.mustBeZero, Fields.isZero]

@[simp] theorem Fields.wellFormed_U (f : Fields) :
    f.wellFormed .U = true ↔ f.rs2 = 0 ∧ f.rs3 = 0 ∧ f.res = 0 ∧ f.imm = 0 := by
  simp [Fields.wellFormed, Format.mustBeZero, Fields.isZero]

@[simp] theorem Fields.wellFormed_B (f : Fields) :
    f.wellFormed .B = true ↔ f.rs3 = 0 ∧ f.res = 0 ∧ f.imm = 0 := by
  simp [Fields.wellFormed, Format.mustBeZero, Fields.isZero]

@[simp] theorem Fields.wellFormed_T (f : Fields) :
    f.wellFormed .T = true ↔ f.res = 0 ∧ f.imm = 0 := by
  simp [Fields.wellFormed, Format.mustBeZero, Fields.isZero]

end Sys2Proof
end

