-- ==== Sys2Proof/Laws/Operands.lean ====
section
/-! SUPPORT. One lemma per operand check: exactly when it accepts a word and as what, and otherwise the cause it gives. -/

namespace Sys2Proof.Machine

theorem stdIdOperand_of_le (f : SrcField) (v : Word) (h : v ≤ 0x7FF#32) :
    stdIdOperand f v = .ok ⟨v.setWidth 11⟩ := if_pos h

theorem stdIdOperand_of_lt (f : SrcField) (v : Word) (h : 0x7FF#32 < v) :
    stdIdOperand f v = .error ⟨.stdRange, some f, some v⟩ := if_neg (BitVec.not_le.mpr h)

theorem extIdOperand_of_le (f : SrcField) (v : Word) (h : v ≤ 0x1FFFFFFF#32) :
    extIdOperand f v = .ok ⟨v.setWidth 29⟩ := if_pos h

theorem extIdOperand_of_lt (f : SrcField) (v : Word) (h : 0x1FFFFFFF#32 < v) :
    extIdOperand f v = .error ⟨.extRange, some f, some v⟩ := if_neg (BitVec.not_le.mpr h)

theorem rawIdOperand_of_zero (f : SrcField) (v : Word) (h : v.extractLsb' 29 3 = 0) :
    rawIdOperand f v = .ok ⟨v.setWidth 29⟩ := if_pos h

theorem rawIdOperand_of_ne (f : SrcField) (v : Word) (h : v.extractLsb' 29 3 ≠ 0) :
    rawIdOperand f v = .error ⟨.rawRange, some f, some v⟩ := if_neg h

/-- Every tag operand accepts exactly the words 0 and 1. -/
theorem boolOperand_cases (f : SrcField) (v : Word) :
    (v = 0 ∧ boolOperand f v = .ok false) ∨ (v = 1 ∧ boolOperand f v = .ok true) ∨
    (v ≠ 0 ∧ v ≠ 1 ∧ boolOperand f v = .error ⟨.tagValue, some f, some v⟩) := by
  unfold boolOperand
  split
  · simp_all
  · split <;> simp_all

theorem frameKindOperand_cases (f : SrcField) (v : Word) :
    (v = 0 ∧ frameKindOperand f v = .ok .data) ∨ (v = 1 ∧ frameKindOperand f v = .ok .remote) ∨
    (v ≠ 0 ∧ v ≠ 1 ∧ frameKindOperand f v = .error ⟨.tagValue, some f, some v⟩) := by
  unfold frameKindOperand
  split
  · simp_all
  · split <;> simp_all

theorem idTypeOperand_cases (f : SrcField) (v : Word) :
    (v = 0 ∧ idTypeOperand f v = .ok .standard) ∨ (v = 1 ∧ idTypeOperand f v = .ok .extended) ∨
    (v ≠ 0 ∧ v ≠ 1 ∧ idTypeOperand f v = .error ⟨.tagValue, some f, some v⟩) := by
  unfold idTypeOperand
  split
  · simp_all
  · split <;> simp_all

end Sys2Proof.Machine
end

