-- ==== Sys2Proof/Laws/State.lean ====
section
/-! SUPPORT. One lemma per field per update of the state, and read after write on slots. -/

namespace Sys2Proof.Machine

section Complete
variable (s : State) (rd n : SlotIdx) (v : Word)

@[simp] theorem complete_x : (complete s rd v).x = s.x.set rd (.written v) := rfl
@[simp] theorem complete_pc : (complete s rd v).pc = s.pc + 1 := rfl
@[simp] theorem complete_fault : (complete s rd v).fault = s.fault := rfl
@[simp] theorem complete_prog : (complete s rd v).prog = s.prog := rfl

theorem complete_slot_same : (complete s rd v).x[rd] = .written v := by simp

theorem complete_slot_other (h : n ≠ rd) : (complete s rd v).x[n] = s.x[n] := by
  have : rd.val ≠ n.val := fun e => h (Fin.ext e.symm)
  simp [this]

end Complete

section Raise
variable (s : State) (w : CmdWord) (c : Cause)

@[simp] theorem raise_x : (raise s w c).x = s.x := rfl
@[simp] theorem raise_pc : (raise s w c).pc = s.pc := rfl
@[simp] theorem raise_prog : (raise s w c).prog = s.prog := rfl
@[simp] theorem raise_fault : (raise s w c).fault = some ⟨c.code, s.pc, w, c.field, c.value⟩ := rfl

end Raise

section Reset
variable (s : State) (p : List CmdWord)

@[simp] theorem reset_pc : State.reset.pc = 0 := rfl
@[simp] theorem reset_fault : State.reset.fault = none := rfl
@[simp] theorem reset_prog : State.reset.prog = [] := rfl
@[simp] theorem reset_x : State.reset.x = Vector.replicate 16 .unwritten := rfl
@[simp] theorem launch_pc : (launch p).pc = 0 := rfl
@[simp] theorem launch_fault : (launch p).fault = none := rfl
@[simp] theorem launch_prog : (launch p).prog = p := rfl
@[simp] theorem launch_x : (launch p).x = State.reset.x := rfl
@[simp] theorem resetHarness_pc : (resetHarness s).pc = 0 := rfl
@[simp] theorem resetHarness_fault : (resetHarness s).fault = none := rfl
@[simp] theorem resetHarness_prog : (resetHarness s).prog = s.prog := rfl
@[simp] theorem resetHarness_x : (resetHarness s).x = State.reset.x := rfl

end Reset

section Place
variable (s : State) (w : CmdWord)

@[simp] theorem placeCommand_x : (placeCommand s w).x = s.x := rfl
@[simp] theorem placeCommand_pc : (placeCommand s w).pc = s.pc := rfl
@[simp] theorem placeCommand_fault : (placeCommand s w).fault = none := rfl

theorem placeCommand_at_pc : (placeCommand s w).prog[s.pc]? = some w := by
  have h : (s.prog.take s.pc ++ List.replicate (s.pc - s.prog.length) (0 : CmdWord)).length = s.pc := by
    simp; omega
  simp only [placeCommand]
  rw [List.getElem?_append_right (by omega), h]
  simp

end Place

end Sys2Proof.Machine
end

