-- ==== Sys2Proof/Laws/Ops.lean ====
section
/-! SUPPORT. One lemma per shared operation that says everything it can do. -/

namespace Sys2Proof.Machine

@[simp] theorem readSlot_written (s : State) (f : SrcField) (n : SlotIdx) (v : Word) (h : s.x[n] = .written v) :
    readSlot s f n = .ok v := by
  unfold readSlot; rw [h]

@[simp] theorem readSlot_unwritten (s : State) (f : SrcField) (n : SlotIdx) (h : s.x[n] = .unwritten) :
    readSlot s f n = .error ⟨.unwrittenSlot, some f, none⟩ := by
  unfold readSlot; rw [h]

/-- Reading a slot gives its word, or the cause of F_UNWRITTEN_SLOT. -/
theorem readSlot_cases (s : State) (f : SrcField) (n : SlotIdx) :
    (∃ v, s.x[n] = .written v ∧ readSlot s f n = .ok v) ∨
    (s.x[n] = .unwritten ∧ readSlot s f n = .error ⟨.unwrittenSlot, some f, none⟩) := by
  unfold readSlot
  split
  · exact .inl ⟨_, ‹_›, rfl⟩
  · exact .inr ⟨‹_›, rfl⟩

@[simp] theorem finish_ok (s : State) (w : CmdWord) (rd : SlotIdx) (v : Word) :
    finish s w rd (.ok v) = .next (complete s rd v) := rfl

@[simp] theorem finish_error (s : State) (w : CmdWord) (rd : SlotIdx) (c : Cause) :
    finish s w rd (.error c) = .next (raise s w c) := rfl

/-- The end of a rule is a completion or a raised fault, and never a stop. -/
theorem finish_cases (s : State) (w : CmdWord) (rd : SlotIdx) (e : Except Cause Word) :
    (∃ v, e = .ok v ∧ finish s w rd e = .next (complete s rd v)) ∨
    (∃ c, e = .error c ∧ finish s w rd e = .next (raise s w c)) := by
  cases e with
  | ok v => exact .inl ⟨v, rfl, rfl⟩
  | error c => exact .inr ⟨c, rfl, rfl⟩

/-- What a format U command does when its source is written. -/
theorem unary_written (s : State) (w : CmdWord) (rd rs1 : SlotIdx) (rule : Word → Except Cause Word) (a : Word)
    (h : s.x[rs1] = .written a) : unary s w rd rs1 rule = finish s w rd (rule a) := by
  simp [unary, h, Except.bind]

/-- What a format B command does when its sources are written. -/
theorem binary_written (s : State) (w : CmdWord) (rd rs1 rs2 : SlotIdx) (rule : Word → Word → Except Cause Word)
    (a b : Word) (h1 : s.x[rs1] = .written a) (h2 : s.x[rs2] = .written b) :
    binary s w rd rs1 rs2 rule = finish s w rd (rule a b) := by
  simp [binary, h1, h2, Except.bind]

/-- What a format T command does when its sources are written. -/
theorem ternary_written (s : State) (w : CmdWord) (rd rs1 rs2 rs3 : SlotIdx)
    (rule : Word → Word → Word → Except Cause Word) (a b c : Word) (h1 : s.x[rs1] = .written a)
    (h2 : s.x[rs2] = .written b) (h3 : s.x[rs3] = .written c) :
    ternary s w rd rs1 rs2 rs3 rule = finish s w rd (rule a b c) := by
  simp [ternary, h1, h2, h3, Except.bind]

/-- Fetching finds the word at pc exactly when no fault is recorded and pc is inside the program. -/
theorem fetch_ok (s : State) (w : CmdWord) : fetch s = .ok w ↔ s.fault = none ∧ s.prog[s.pc]? = some w := by
  unfold fetch
  split
  · simp_all
  · split
    · simp_all
    · split <;> simp_all

/-- Why a state has nothing to fetch. -/
theorem fetch_error (s : State) (e : Fault) (h : fetch s = .error e) :
    (∃ r, s.fault = some r ∧ e = .endedInFault r) ∨
    (s.fault = none ∧ s.pc = s.prog.length ∧ e = .endOfRun) ∨
    (s.fault = none ∧ s.prog.length < s.pc ∧ e = .pcPastEnd) := by
  unfold fetch at h
  split at h
  · exact .inl ⟨_, ‹_›, by simpa using h.symm⟩
  · split at h
    · cases h
    · have hpc := List.getElem?_eq_none_iff.mp ‹s.prog[s.pc]? = none›
      split at h
      · exact .inr (.inl ⟨‹_›, ‹_›, by simpa using h.symm⟩)
      · exact .inr (.inr ⟨‹_›, by omega, by simpa using h.symm⟩)

end Sys2Proof.Machine
end

