-- ==== Sys2Proof/Laws/PerInstr.lean ====
section
/-! SUPPORT. The per-instruction family EncodeWellFormed: the encoder gives each command fields that its format accepts
(spec/30_encoding.md R53), with the opcode of R56. -/

namespace Sys2Proof.Laws.EncodeWellFormed

/-- Every field that the command's format does not use is zero in the command's word, and the opcode is the command's. -/
def Statement (i : Instr) : Prop := i.fields.wellFormed i.format = true ∧ i.fields.opcode = i.opcode

theorem li (rd : SlotIdx) (imm : Word) : Statement (.li rd imm) := by simp [Statement, Instr.fields, Instr.format, fieldsL]
theorem newStd (rd rs1 : SlotIdx) : Statement (.newStd rd rs1) := by simp [Statement, Instr.fields, Instr.format, fieldsU]
theorem newExt (rd rs1 : SlotIdx) : Statement (.newExt rd rs1) := by simp [Statement, Instr.fields, Instr.format, fieldsU]
theorem fromReg (rd rs1 rs2 rs3 : SlotIdx) : Statement (.fromReg rd rs1 rs2 rs3) := by
  simp [Statement, Instr.fields, Instr.format, fieldsT]
theorem withRtr (rd rs1 rs2 : SlotIdx) : Statement (.withRtr rd rs1 rs2) := by
  simp [Statement, Instr.fields, Instr.format, fieldsB]
theorem toId (rd rs1 : SlotIdx) : Statement (.toId rd rs1) := by simp [Statement, Instr.fields, Instr.format, fieldsU]
theorem isExt (rd rs1 : SlotIdx) : Statement (.isExt rd rs1) := by simp [Statement, Instr.fields, Instr.format, fieldsU]
theorem isStd (rd rs1 : SlotIdx) : Statement (.isStd rd rs1) := by simp [Statement, Instr.fields, Instr.format, fieldsU]
theorem isRtr (rd rs1 : SlotIdx) : Statement (.isRtr rd rs1) := by simp [Statement, Instr.fields, Instr.format, fieldsU]
theorem rawId (rd rs1 : SlotIdx) : Statement (.rawId rd rs1) := by simp [Statement, Instr.fields, Instr.format, fieldsU]
theorem idType (rd rs1 : SlotIdx) : Statement (.idType rd rs1) := by simp [Statement, Instr.fields, Instr.format, fieldsU]
theorem frameKind (rd rs1 : SlotIdx) : Statement (.frameKind rd rs1) := by
  simp [Statement, Instr.fields, Instr.format, fieldsU]
theorem cmp (rd rs1 rs2 : SlotIdx) : Statement (.cmp rd rs1 rs2) := by simp [Statement, Instr.fields, Instr.format, fieldsB]

end Sys2Proof.Laws.EncodeWellFormed
end

