-- ==== Sys2Proof/Laws/Query.lean ====
section
/-! SUPPORT. What the flags, the identifier and the raw bits of a register value are, bit by bit: later proofs cite these
and unfold no mask or shift. -/

namespace Sys2Proof.Machine

/-- The XTD flag is bit 30. -/
theorem xtd_eq_getLsbD (r : Reg) : xtd r = r.bits.getLsbD 30 := by
  have h : ∀ b : Bool, (BitVec.ofBool b == 1#1) = b := by decide
  have e : xtdBit r = BitVec.ofBool (r.bits.getLsbD 30) := by
    apply BitVec.eq_of_getLsbD_eq
    intro k hk
    obtain rfl : k = 0 := by omega
    simp [xtdBit, Config.xtdBit]
  rw [xtd, e, h]

/-- The RTR flag, as a bit, is bit 29. -/
theorem rtrBit_eq_ofBool (r : Reg) : rtrBit r = BitVec.ofBool (r.bits.getLsbD 29) := by
  apply BitVec.eq_of_getLsbD_eq
  intro k hk
  obtain rfl : k = 0 := by omega
  simp [rtrBit, Config.rtrBit]

/-- The RTR flag is bit 29. -/
theorem rtr_eq_getLsbD (r : Reg) : rtr r = r.bits.getLsbD 29 := by
  have h : ∀ b : Bool, (BitVec.ofBool b == 1#1) = b := by decide
  rw [rtr, rtrBit_eq_ofBool, h]

/-- Masking with EXT_MASK and narrowing keeps bits 28..0. -/
theorem extMask_narrow (w : BitVec 32) : (w &&& Config.extMask).setWidth 29 = w.extractLsb' 0 29 := by
  have hm : ∀ k < 29, (0x1FFFFFFF#32).getLsbD k = true := by decide
  apply BitVec.eq_of_getLsbD_eq
  intro k hk
  simp only [BitVec.getLsbD_setWidth, BitVec.getLsbD_and, Config.extMask, hm k hk, BitVec.getLsbD_extractLsb',
    Bool.and_true, Nat.zero_add]

/-- Masking with STD_MASK, shifting and narrowing keeps bits 28..18. -/
theorem stdMask_narrow (w : BitVec 32) :
    ((w &&& Config.stdMask) >>> Config.stdShift).setWidth 11 = w.extractLsb' 18 11 := by
  have hm : ∀ k < 11, (0x1FFC0000#32).getLsbD (18 + k) = true := by decide
  apply BitVec.eq_of_getLsbD_eq
  intro k hk
  simp only [BitVec.getLsbD_setWidth, BitVec.getLsbD_ushiftRight, BitVec.getLsbD_and, Config.stdMask, Config.stdShift,
    hm k hk, BitVec.getLsbD_extractLsb', Bool.and_true]

/-- The identifier of an extended value is bits 28..0. -/
theorem toId_of_extended (r : Reg) (h : r.bits.getLsbD 30 = true) :
    toId r = .extended ⟨r.bits.extractLsb' 0 29⟩ := by
  rw [toId, xtd_eq_getLsbD, if_pos h, extMask_narrow]

/-- The identifier of a standard value is bits 28..18. -/
theorem toId_of_standard (r : Reg) (h : r.bits.getLsbD 30 = false) :
    toId r = .standard ⟨r.bits.extractLsb' 18 11⟩ := by
  rw [toId, xtd_eq_getLsbD, if_neg (by rw [h]; exact Bool.false_ne_true), stdMask_narrow]

/-- The raw bits are bits 28..0. -/
theorem rawId_eq_extract (r : Reg) : rawId r = ⟨r.bits.extractLsb' 0 29⟩ := by
  rw [rawId, extMask_narrow]

/-- The base ID of the identifier of an extended value is bits 28..18 of the value. -/
theorem baseId_of_extract (w : BitVec 32) : baseId ⟨w.extractLsb' 0 29⟩ = ⟨w.extractLsb' 18 11⟩ := by
  rw [baseId]
  congr 1
  apply BitVec.eq_of_getLsbD_eq
  intro k hk
  simp only [BitVec.getLsbD_extractLsb', Config.baseShift, hk, decide_true, Bool.true_and, Nat.zero_add,
    show 18 + k < 29 by omega]

end Sys2Proof.Machine
end

