-- ==== Sys2Proof/Laws/Priority.lean ====
section
/-! SUPPORT. The lemmas of the three-way comparison, of `reverse` and of `andThen`. -/

namespace Sys2Proof.Machine

theorem cmpu_of_lt {n : Nat} {a b : BitVec n} (h : a < b) : cmpu a b = .lt := Nat.compare_eq_lt.mpr h

theorem cmpu_of_gt {n : Nat} {a b : BitVec n} (h : b < a) : cmpu a b = .gt := Nat.compare_eq_gt.mpr h

@[simp] theorem cmpu_self {n : Nat} (a : BitVec n) : cmpu a a = .eq := Nat.compare_eq_eq.mpr rfl

@[simp] theorem reverse_reverse (o : Ordering) : reverse (reverse o) = o := by cases o <;> rfl

theorem reverse_andThen (o p : Ordering) : reverse (andThen o p) = andThen (reverse o) (reverse p) := by
  cases o <;> rfl

theorem andThen_eq_lt (o p : Ordering) : andThen o p = .lt ↔ o = .lt ∨ (o = .eq ∧ p = .lt) := by
  cases o <;> simp [andThen]

theorem andThen_eq_gt (o p : Ordering) : andThen o p = .gt ↔ o = .gt ∨ (o = .eq ∧ p = .gt) := by
  cases o <;> simp [andThen]

theorem andThen_eq_eq (o p : Ordering) : andThen o p = .eq ↔ o = .eq ∧ p = .eq := by
  cases o <;> simp [andThen]

/-- The frame-kind tie-break: equal, or the data frame is the greater. -/
theorem rtrOrder_eq (a b : Reg) :
    rtrOrder a b =
      if a.bits.getLsbD 29 = b.bits.getLsbD 29 then .eq else if a.bits.getLsbD 29 then .lt else .gt := by
  rw [rtrOrder, rtrBit_eq_ofBool, rtrBit_eq_ofBool]
  cases a.bits.getLsbD 29 <;> cases b.bits.getLsbD 29 <;> decide

end Sys2Proof.Machine
end

