-- ==== Sys2Proof/Laws/Step.lean ====
section
/-! SUPPORT. What a command and a step can do, said once: later proofs cite these instead of unfolding. -/

namespace Sys2Proof.Machine

/-- A format U command completes on rd or raises a fault. -/
theorem unary_cases (s : State) (w : CmdWord) (rd rs1 : SlotIdx) (rule : Word → Except Cause Word) :
    (∃ v, unary s w rd rs1 rule = .next (complete s rd v)) ∨ (∃ c, unary s w rd rs1 rule = .next (raise s w c)) := by
  obtain ⟨v, -, h⟩ | ⟨c, -, h⟩ := finish_cases s w rd ((readSlot s .rs1 rs1).bind rule)
  · exact .inl ⟨v, h⟩
  · exact .inr ⟨c, h⟩

/-- A format B command completes on rd or raises a fault. -/
theorem binary_cases (s : State) (w : CmdWord) (rd rs1 rs2 : SlotIdx) (rule : Word → Word → Except Cause Word) :
    (∃ v, binary s w rd rs1 rs2 rule = .next (complete s rd v)) ∨
    (∃ c, binary s w rd rs1 rs2 rule = .next (raise s w c)) := by
  unfold binary
  obtain ⟨v, -, h⟩ | ⟨c, -, h⟩ := finish_cases s w rd
    ((readSlot s .rs1 rs1).bind fun a => (readSlot s .rs2 rs2).bind fun b => rule a b)
  · exact .inl ⟨v, h⟩
  · exact .inr ⟨c, h⟩

/-- A format T command completes on rd or raises a fault. -/
theorem ternary_cases (s : State) (w : CmdWord) (rd rs1 rs2 rs3 : SlotIdx)
    (rule : Word → Word → Word → Except Cause Word) :
    (∃ v, ternary s w rd rs1 rs2 rs3 rule = .next (complete s rd v)) ∨
    (∃ c, ternary s w rd rs1 rs2 rs3 rule = .next (raise s w c)) := by
  unfold ternary
  obtain ⟨v, -, h⟩ | ⟨c, -, h⟩ := finish_cases s w rd ((readSlot s .rs1 rs1).bind fun a =>
    (readSlot s .rs2 rs2).bind fun b => (readSlot s .rs3 rs3).bind fun c => rule a b c)
  · exact .inl ⟨v, h⟩
  · exact .inr ⟨c, h⟩

/-- Every command completes on its destination or raises a fault with its own word; none stops the machine. -/
theorem exec_cases (i : Instr) (s : State) :
    (∃ v, exec i s = .next (complete s (destination i) v)) ∨ (∃ c, exec i s = .next (raise s (encode i) c)) := by
  cases i with
  | li rd imm => exact .inl ⟨imm, rfl⟩
  | newStd => exact unary_cases ..
  | newExt => exact unary_cases ..
  | fromReg => exact ternary_cases ..
  | withRtr => exact binary_cases ..
  | toId => exact unary_cases ..
  | isExt => exact unary_cases ..
  | isStd => exact unary_cases ..
  | isRtr => exact unary_cases ..
  | rawId => exact unary_cases ..
  | idType => exact unary_cases ..
  | frameKind => exact unary_cases ..
  | cmp => exact binary_cases ..

/-- A step of a state with a word to fetch, where the word is a command. -/
theorem step_of_decode_ok (s : State) (w : CmdWord) (i : Instr) (hf : fetch s = .ok w) (hd : decode w = .ok i) :
    step s = exec i s := by
  simp [step, hf, hd]

/-- A step of a state with a word to fetch, where the word is illegal. -/
theorem step_of_decode_error (s : State) (w : CmdWord) (e : Illegal) (hf : fetch s = .ok w) (hd : decode w = .error e) :
    step s = .next (raise s w ⟨.illegalCommand, none, none⟩) := by
  simp [step, hf, hd, raiseIllegal]

/-- Everything a step that has a successor can do: raise F_ILLEGAL_COMMAND, or run the command at pc, which completes or
raises its fault. -/
theorem step_next_cases (s t : State) (h : step s = .next t) :
    ∃ w, s.fault = none ∧ s.prog[s.pc]? = some w ∧
      ((∃ e, decode w = .error e ∧ t = raise s w ⟨.illegalCommand, none, none⟩) ∨
       (∃ i, decode w = .ok i ∧ exec i s = .next t ∧
         ((∃ v, t = complete s (destination i) v) ∨ (∃ c, t = raise s (encode i) c)))) := by
  cases hf : fetch s with
  | error e => simp [step, hf] at h
  | ok w =>
    obtain ⟨h1, h2⟩ := (fetch_ok s w).mp hf
    refine ⟨w, h1, h2, ?_⟩
    cases hd : decode w with
    | error e =>
      rw [step_of_decode_error s w e hf hd] at h
      exact .inl ⟨e, rfl, (Host.Outcome.next.inj h).symm⟩
    | ok i =>
      rw [step_of_decode_ok s w i hf hd] at h
      refine .inr ⟨i, rfl, h, ?_⟩
      obtain ⟨v, hv⟩ | ⟨c, hc⟩ := exec_cases i s
      · exact .inl ⟨v, Host.Outcome.next.inj (h.symm.trans hv)⟩
      · exact .inr ⟨c, Host.Outcome.next.inj (h.symm.trans hc)⟩

end Sys2Proof.Machine
end

