-- ==== Sys2Proof/Laws/Run.lean ====
section
/-! SUPPORT. Runs of several steps: how one is cut at its first step, and the induction over steps, packaged once. -/

namespace Sys2Proof.Machine

theorem run_zero (s t : State) : Sys2Proof.core.run 0 s = .next t ↔ s = t :=
  ⟨fun h => Host.Outcome.next.inj h, fun h => by rw [h]; rfl⟩

/-- A run of k + 1 steps, for any machine behind the host's interface. -/
theorem coreRun_succ (M : Host.Core) (k : Nat) (s t : M.State) :
    M.run (k + 1) s = .next t ↔ ∃ u, M.step s = .next u ∧ M.run k u = .next t := by
  rw [Host.Core.run]
  cases M.step s with
  | next u => exact ⟨fun h => ⟨u, rfl, h⟩, fun ⟨_, h, h'⟩ => Host.Outcome.next.inj h ▸ h'⟩
  | fault r => simp
  | refused r => simp

/-- A run of k + 1 steps that answers a next state is a step and then a run of k steps. -/
theorem run_succ (k : Nat) (s t : State) :
    Sys2Proof.core.run (k + 1) s = .next t ↔ ∃ u : State, step s = .next u ∧ Sys2Proof.core.run k u = .next t :=
  coreRun_succ Sys2Proof.core k s t

/-- A property that every step keeps holds at the end of every run that starts with it. -/
theorem run_induction (P : State → Prop) (hstep : ∀ s t, P s → step s = .next t → P t) (k : Nat) (s t : State)
    (hs : P s) (h : Sys2Proof.core.run k s = .next t) : P t := by
  induction k generalizing s with
  | zero => exact (run_zero s t).mp h ▸ hs
  | succ k ih =>
    obtain ⟨u, h1, h2⟩ := (run_succ k s t).mp h
    exact ih u (hstep s u hs h1) h2

end Sys2Proof.Machine
end

