-- ==== Sys2Proof/Tests/Slice0.lean ====
section
/-! SUPPORT. The model's own tests. Every expected result is from spec/95_test_vectors.md or from the encodings of
spec/30_encoding.md; each test names the table or rule. Then a witness for every statement that has hypotheses. -/

namespace Sys2Proof.Tests

open Sys2Proof Sys2Proof.Machine

/-! ## WellFormed: one ill-formed command for each field a format requires to be zero (R53) -/

theorem smoke_L_refuses :
    (Fields.mk 0x01 1 1 0 0 0 5).wellFormed .L = false ∧ (Fields.mk 0x01 1 0 1 0 0 5).wellFormed .L = false ∧
    (Fields.mk 0x01 1 0 0 1 0 5).wellFormed .L = false ∧ (Fields.mk 0x01 1 0 0 0 1 5).wellFormed .L = false := by decide

theorem smoke_U_refuses :
    (Fields.mk 0x10 2 1 1 0 0 0).wellFormed .U = false ∧ (Fields.mk 0x10 2 1 0 1 0 0).wellFormed .U = false ∧
    (Fields.mk 0x10 2 0 0 0 1 0).wellFormed .U = false ∧ (Fields.mk 0x10 2 0 0 0 0 1).wellFormed .U = false := by decide

theorem smoke_B_refuses :
    (Fields.mk 0x30 1 2 3 1 0 0).wellFormed .B = false ∧ (Fields.mk 0x30 1 2 3 0 1 0).wellFormed .B = false ∧
    (Fields.mk 0x30 1 2 3 0 0 1).wellFormed .B = false := by decide

theorem smoke_T_refuses :
    (Fields.mk 0x12 4 1 2 3 1 0).wellFormed .T = false ∧ (Fields.mk 0x12 4 1 2 3 0 1).wellFormed .T = false := by decide

theorem smoke_accepts :
    (Fields.mk 0x01 15 0 0 0 0 0xFFFFFFFF).wellFormed .L = true ∧ (Fields.mk 0x10 2 1 0 0 0 0).wellFormed .U = true ∧
    (Fields.mk 0x30 15 15 14 0 0 0).wellFormed .B = true ∧ (Fields.mk 0x12 4 1 2 3 0 0).wellFormed .T = true := by decide

/-! ## Decoding: words written out from R52, R53 and R56 (95_test_vectors.md L2.4, L2.5, L3; R61) -/

theorem decode_li : decode 0x01100000000007FF#64 = .ok (.li 1 0x7FF#32) := by decide
theorem decode_newStd : decode 0x1021000000000000#64 = .ok (.newStd 2 1) := by decide
theorem decode_newExt : decode 0x1165000000000000#64 = .ok (.newExt 6 5) := by decide
theorem decode_fromReg : decode 0x1241230000000000#64 = .ok (.fromReg 4 1 2 3) := by decide
theorem decode_withRtr : decode 0x1342300000000000#64 = .ok (.withRtr 4 2 3) := by decide
theorem decode_toId : decode 0x2054000000000000#64 = .ok (.toId 5 4) := by decide
theorem decode_isExt : decode 0x21A9000000000000#64 = .ok (.isExt 10 9) := by decide
theorem decode_isStd : decode 0x2294000000000000#64 = .ok (.isStd 9 4) := by decide
theorem decode_isRtr : decode 0x2364000000000000#64 = .ok (.isRtr 6 4) := by decide
theorem decode_rawId : decode 0x2474000000000000#64 = .ok (.rawId 7 4) := by decide
theorem decode_idType : decode 0x25EB000000000000#64 = .ok (.idType 14 11) := by decide
theorem decode_frameKind : decode 0x26DB000000000000#64 = .ok (.frameKind 13 11) := by decide
theorem decode_cmp : decode 0x30FFE00000000000#64 = .ok (.cmp 15 15 14) := by decide

/-- L2.5: unassigned opcodes. -/
theorem decode_unassigned :
    decode 0x0000000000000000#64 = .error (.unassignedOpcode 0x00) ∧
    decode 0x0200000000000000#64 = .error (.unassignedOpcode 0x02) ∧
    decode 0xFF00000000000000#64 = .error (.unassignedOpcode 0xFF) := by decide

/-- L2.5: non-zero reserved and unused fields. -/
theorem decode_unused_field :
    decode 0x1021100000000000#64 = .error (.nonZeroField .rs2) ∧
    decode 0x1021010000000000#64 = .error (.nonZeroField .rs3) ∧
    decode 0x1020000100000000#64 = .error (.nonZeroField .res) ∧
    decode 0x1020000000000001#64 = .error (.nonZeroField .imm) ∧
    decode 0x3012310000000000#64 = .error (.nonZeroField .rs3) ∧
    decode 0x1241230100000000#64 = .error (.nonZeroField .res) ∧
    decode 0x01F1000000000000#64 = .error (.nonZeroField .rs1) := by decide

/-- The encoder on R61's worked command and on L2.4's words. -/
theorem encode_words :
    encode (.fromReg 4 1 2 3) = 0x1241230000000000#64 ∧ encode (.li 15 0xFFFFFFFF#32) = 0x01F00000FFFFFFFF#64 ∧
    encode (.li 0 0) = 0x0100000000000000#64 := by decide

/-- The table's numbering: bit 0 is the least significant bit of the one 64-bit word. -/
theorem decodeTableWord_li : decodeTableWord 64 0x01F00000FFFFFFFF = some (.li 15 0xFFFFFFFF#32) := by decide

/-! ## One step of each command -/

/-- A state after reset with three slots set, and one command at pc 0. -/
def small (a b c : Slot) (i : Instr) : State :=
  { State.reset with x := ((State.reset.x.set 1 a).set 2 b).set 3 c, prog := [encode i] }

/-- What the step of that state leaves in a slot, if it completes without a fault and moves pc on. -/
def result (a b c : Slot) (i : Instr) (n : SlotIdx) : Option Slot :=
  match step (small a b c i) with
  | .next t => if t.fault = none ∧ t.pc = 1 then some t.x[n] else none
  | _ => none

/-- The code, pc, field and value of the fault record that the step leaves, if it writes no slot and leaves pc. -/
def faulted (a b c : Slot) (i : Instr) : Option (FaultCode × Nat × Option SrcField × Option Word) :=
  match step (small a b c i) with
  | .next t => if t.pc = 0 ∧ t.x[(9 : SlotIdx)] = .unwritten then t.fault.map fun r => (r.code, r.pc, r.field, r.value) else none
  | _ => none

/-- L2.1, ID.NEW_STD. -/
theorem newStd_vectors :
    result (.written 0x123) .unwritten .unwritten (.newStd 9 1) 9 = some (.written 0x048C0000) ∧
    result (.written 0x7FF) .unwritten .unwritten (.newStd 1 1) 1 = some (.written 0x1FFC0000) := by decide

theorem newStd_faults :
    faulted (.written 0x800) .unwritten .unwritten (.newStd 9 1) = some (.stdRange, 0, some .rs1, some 0x800) ∧
    faulted .unwritten .unwritten .unwritten (.newStd 9 1) = some (.unwrittenSlot, 0, some .rs1, none) := by decide

/-- L2.1, ID.NEW_EXT. -/
theorem newExt_vectors :
    result (.written 0x04000000) .unwritten .unwritten (.newExt 9 1) 9 = some (.written 0x44000000) ∧
    result (.written 0x1FFFFFFF) .unwritten .unwritten (.newExt 9 1) 9 = some (.written 0x5FFFFFFF) := by decide

theorem newExt_faults :
    faulted (.written 0x20000000) .unwritten .unwritten (.newExt 9 1) =
      some (.extRange, 0, some .rs1, some 0x20000000) := by decide

/-- L2.1, ID.FROM_REG: don't-care bits are stored; the flags come from rs2 and rs3 in that order. -/
theorem fromReg_vectors :
    result (.written 0x048C002A) (.written 1) (.written 0) (.fromReg 9 1 2 3) 9 = some (.written 0x248C002A) ∧
    result (.written 0x04000000) (.written 0) (.written 1) (.fromReg 9 1 2 3) 9 = some (.written 0x44000000) := by decide

/-- L2.1 and L2.6: the order of the checks. -/
theorem fromReg_faults :
    faulted (.written 0x40000000) (.written 2) (.written 0) (.fromReg 9 1 2 3) =
      some (.rawRange, 0, some .rs1, some 0x40000000) ∧
    faulted (.written 0) (.written 2) (.written 5) (.fromReg 9 1 2 3) = some (.tagValue, 0, some .rs2, some 2) ∧
    faulted (.written 0) (.written 0) (.written 5) (.fromReg 9 1 2 3) = some (.tagValue, 0, some .rs3, some 5) ∧
    faulted (.written 0x04000000) (.written 0x900) .unwritten (.fromReg 9 1 2 3) =
      some (.unwrittenSlot, 0, some .rs3, none) :=
  ⟨by decide, by decide, by decide, by decide⟩

/-- L2.1, ID.WITH_RTR: set when already set, cleared with bit 31 and all else kept. -/
theorem withRtr_vectors :
    result (.written 0x24000000) (.written 1) .unwritten (.withRtr 9 1 2) 9 = some (.written 0x24000000) ∧
    result (.written 0xFFFFFFFF) (.written 0) .unwritten (.withRtr 1 1 2) 1 = some (.written 0xDFFFFFFF) := by decide

theorem withRtr_faults :
    faulted (.written 0x04000000) (.written 2) .unwritten (.withRtr 9 1 2) =
      some (.tagValue, 0, some .rs2, some 2) := by decide

/-- L2.2: a standard word with every don't-care bit and bit 31 set, and an extended one. -/
theorem toId_vectors :
    result (.written 0xBFFFFFFF) .unwritten .unwritten (.toId 9 1) 9 = some (.written 0x000007FF) ∧
    result (.written 0x64000000) .unwritten .unwritten (.toId 9 1) 9 = some (.written 0x84000000) := by decide

theorem isExt_vectors :
    result (.written 0x40000000) .unwritten .unwritten (.isExt 9 1) 9 = some (.written 1) ∧
    result (.written 0xBFFFFFFF) .unwritten .unwritten (.isExt 9 1) 9 = some (.written 0) := by decide

theorem isStd_vectors :
    result (.written 0x40000000) .unwritten .unwritten (.isStd 9 1) 9 = some (.written 0) ∧
    result (.written 0xBFFFFFFF) .unwritten .unwritten (.isStd 9 1) 9 = some (.written 1) := by decide

theorem isRtr_vectors :
    result (.written 0x24000000) .unwritten .unwritten (.isRtr 9 1) 9 = some (.written 1) ∧
    result (.written 0x5FFFFFFF) .unwritten .unwritten (.isRtr 9 1) 9 = some (.written 0) := by decide

theorem rawId_vectors :
    result (.written 0x048C002A) .unwritten .unwritten (.rawId 9 1) 9 = some (.written 0x048C002A) ∧
    result (.written 0xFFFFFFFF) .unwritten .unwritten (.rawId 9 1) 9 = some (.written 0x1FFFFFFF) := by decide

theorem idType_vectors :
    result (.written 0x5FFFFFFF) .unwritten .unwritten (.idType 9 1) 9 = some (.written 1) ∧
    result (.written 0xBFFFFFFF) .unwritten .unwritten (.idType 9 1) 9 = some (.written 0) := by decide

theorem frameKind_vectors :
    result (.written 0x24000000) .unwritten .unwritten (.frameKind 9 1) 9 = some (.written 1) ∧
    result (.written 0x5FFFFFFF) .unwritten .unwritten (.frameKind 9 1) 9 = some (.written 0) := by decide

/-- L2.3: the standard remote frame wins at equal base ID; a smaller base ID wins over a standard frame; don't-care bits. -/
theorem cmp_vectors :
    result (.written 0x24000000) (.written 0x44000000) .unwritten (.cmp 9 1 2) 9 = some (.written 0x00000001) ∧
    result (.written 0x04000000) (.written 0x43FFFFFF) .unwritten (.cmp 9 1 2) 9 = some (.written 0xFFFFFFFF) ∧
    result (.written 0x04000001) (.written 0x04000000) .unwritten (.cmp 1 1 2) 1 = some (.written 0x00000000) := by decide

/-- L1.1, rows S1 to S5, S4 with both of the pairs of C1. -/
theorem cmp_scenarios :
    Machine.cmp (newStd ⟨0x100⟩) (newStd ⟨0x200⟩) = .gt ∧
    Machine.cmp (newStd ⟨0x100⟩) (withRtr (newStd ⟨0x100⟩) true) = .gt ∧
    Machine.cmp (newStd ⟨0x100⟩) (newExt ⟨0x04000000⟩) = .gt ∧
    Machine.cmp (newExt ⟨0x50⟩) (newStd ⟨0x3FF⟩) = .gt ∧
    Machine.cmp (newExt ⟨0x10000000⟩) (newStd ⟨0x3FF⟩) = .lt ∧
    Machine.cmp (newExt ⟨0x1FFFFFFF⟩) (newExt ⟨0⟩) = .lt := by decide

/-- L2.4. -/
theorem li_vectors :
    result .unwritten .unwritten .unwritten (.li 1 0x7FF) 1 = some (.written 0x7FF) ∧
    result (.written 7) .unwritten .unwritten (.li 1 0) 1 = some (.written 0) := by decide

/-- L2.6, last row: an illegal word faults before any slot is read, and records the word. -/
theorem illegal_word_faults :
    (match step (launch [0x1021100000000000#64]) with
      | .next t => t.fault
      | _ => none) = some ⟨.illegalCommand, 0, 0x1021100000000000#64, none, none⟩ := by decide

/-- The word placed after reset runs in the very next step. -/
theorem placed_word_runs :
    (match step (State.reset.withFetchWord 64 0x01100000000007FF) with
      | .next t => some t.x[(1 : SlotIdx)]
      | _ => none) = some (.written 0x7FF) := by decide

/-! ## The assembler: the examples of R59 -/

theorem assemble_examples :
    assembleLine "li x1, 0x123".toList = some (some (.li 1 0x123)) ∧
    assembleLine "id.new_std x2, x1".toList = some (some (.newStd 2 1)) ∧
    assembleLine "id.from_reg x4, x1, x2, x3".toList = some (some (.fromReg 4 1 2 3)) ∧
    assembleLine "id.with_rtr x5, x4, x6".toList = some (some (.withRtr 5 4 6)) ∧
    assembleLine "id.cmp x7, x4, x5 # a comment".toList = some (some (.cmp 7 4 5)) := by decide

theorem assemble_refuses :
    assembleLine "li x16, 1".toList = none ∧ assembleLine "li x1, 4294967296".toList = none ∧
    assembleLine "ID.CMP x7, x4, x5".toList = none ∧ assembleLine "id.cmp x7, x4".toList = none ∧
    assembleLine "# only a comment".toList = some none := by decide

theorem assemble_program :
    assemble "li x1, 7\nid.new_ext x2, x1\n\nid.cmp x3, x2, x4".toList =
      some [0x0110000000000007#64, 0x1121000000000000#64, 0x3032400000000000#64] := by decide

/-! ## Witnesses: for each statement with hypotheses, a state and operands that meet all of them (for each clause, at a
boundary value of its range) -/

/-- A launched program of one command. -/
def one (w : CmdWord) : State := launch [w]

/-- The state after that program's step, where it is `li x1, 5`. -/
def oneDone : State := complete (one 0x0110000000000005#64) 1 5

/-- The state after the step of a program whose one word is 0. -/
def oneFaulted : State := raise (one 0#64) 0#64 ⟨.illegalCommand, none, none⟩

/-- Whether every slot that is listed holds the word beside it. -/
def holds (s : State) (l : List (SlotIdx × Slot)) : Bool := l.all fun p => s.x[p.1] == p.2

theorem witness_EncodeOfDecodeIsTheWord : decode 0x1241230000000000#64 = .ok (.fromReg 4 1 2 3) := by decide

/-- Each clause of ReservedEncodingsAreIllegal, the opcodes at both ends of every range. -/
theorem witness_ReservedEncodingsAreIllegal :
    ([0x00, 0x02, 0x0F, 0x14, 0x1F, 0x27, 0x2F, 0x31, 0xFF].all fun op : Nat =>
      let n := ((BitVec.ofNat 64 op <<< 56).extractLsb' 56 8).toNat
      decide (n = 0 ∨ (0x02 ≤ n ∧ n ≤ 0x0F) ∨ (0x14 ≤ n ∧ n ≤ 0x1F) ∨ (0x27 ≤ n ∧ n ≤ 0x2F) ∨ 0x31 ≤ n)) = true ∧
    (0x1241230100000000#64).extractLsb' 32 8 ≠ 0 ∧
    (((0x1020000000000001#64).extractLsb' 56 8).toNat ≠ 0x01 ∧ (0x1020000000000001#64).extractLsb' 0 32 ≠ 0) ∧
    (((0x3012310000000000#64).extractLsb' 56 8).toNat ≠ 0x12 ∧ (0x3012310000000000#64).extractLsb' 40 4 ≠ 0) ∧
    (((0x1021100000000000#64).extractLsb' 56 8).toNat = 0x10 ∧ (0x1021100000000000#64).extractLsb' 44 4 ≠ 0) ∧
    (((0x01F1000000000000#64).extractLsb' 56 8).toNat = 0x01 ∧ (0x01F1000000000000#64).extractLsb' 48 4 ≠ 0) :=
  ⟨by decide, by decide, by decide, by decide, by decide, by decide⟩

theorem witness_StepRunsDecodedCommand :
    (one 0x0110000000000005#64).fault = none ∧
    (one 0x0110000000000005#64).prog[(one 0x0110000000000005#64).pc]? = some 0x0110000000000005#64 ∧
    decode 0x0110000000000005#64 = .ok (.li 1 5) := by decide

theorem witness_PlacedWordIsRunNext : decodeTableWord 64 0x3012300000000000 = some (.cmp 1 2 3) := by decide

theorem step_oneDone : step (one 0x0110000000000005#64) = .next oneDone := rfl
theorem step_oneFaulted : step (one 0#64) = .next oneFaulted := rfl

/-- Both ends, and a state that has not ended. -/
theorem witness_EveryRunEndsWithinItsLength :
    EndedNormally oneDone ∧ EndedInFault oneFaulted ∧
    ((one 0#64).pc ≤ (one 0#64).prog.length ∧ ¬ EndedNormally (one 0#64) ∧ ¬ EndedInFault (one 0#64)) :=
  ⟨⟨rfl, rfl⟩, fun h => (nomatch h), by decide, fun h => (nomatch h.2), fun h => h rfl⟩

theorem witness_PcAdvancesByOneOrStays :
    (step (one 0x0110000000000005#64) = .next oneDone ∧ oneDone.fault = none) ∧
    (step (one 0#64) = .next oneFaulted ∧ oneFaulted.fault ≠ none) ∧ oneDone.pc = oneDone.prog.length :=
  ⟨⟨rfl, rfl⟩, ⟨rfl, fun h => (nomatch h)⟩, rfl⟩

theorem witness_CommandsRunInProgramOrder :
    Sys2Proof.core.run 1 (launch [0x0110000000000005#64]) = .next oneDone ∧ oneDone.fault = none := ⟨rfl, rfl⟩

theorem witness_ProgramIsImmutable :
    exec (.li 1 5) (one 0x0110000000000005#64) = .next oneDone ∧
    Sys2Proof.core.run 1 (one 0x0110000000000005#64) = .next oneDone := ⟨rfl, rfl⟩

theorem witness_StepKeepsHarnessInvariant :
    (one 0#64).wf ∧ step (one 0#64) = .next oneFaulted := ⟨⟨by decide, fun r h => (nomatch h)⟩, rfl⟩

theorem witness_WrittenSlotWasWrittenByEarlierCommand :
    Sys2Proof.core.run 1 (launch [0x0110000000000005#64]) = .next oneDone ∧ oneDone.x[(1 : SlotIdx)] = .written 5 :=
  ⟨rfl, by decide⟩

/-- A completing command with a slot other than its destination, and a faulting one. -/
theorem witness_CommandChangesOnlyItsDestination :
    (exec (.li 1 5) (one 0x0110000000000005#64) = .next oneDone ∧ (2 : SlotIdx) ≠ destination (.li 1 5)) ∧
    exec (.isExt 9 1) (one 0#64) = .next (raise (one 0#64) (encode (.isExt 9 1)) ⟨.unwrittenSlot, some .rs1, none⟩) :=
  ⟨⟨rfl, by decide⟩, rfl⟩

/-- Two states that differ outside the source slot. -/
theorem witness_ResultDependsOnlyOnSources :
    let s := small (.written 4) .unwritten .unwritten (.isExt 9 1)
    let s' := small (.written 4) (.written 8) .unwritten (.isExt 9 1)
    (∀ p ∈ sources (.isExt 9 1), s.x[p.2] = s'.x[p.2]) ∧ s.fault = none ∧ s'.fault = none ∧
    exec (.isExt 9 1) s = .next (complete s 9 0) ∧ exec (.isExt 9 1) s' = .next (complete s' 9 0) :=
  ⟨by decide, rfl, rfl, rfl, rfl⟩

theorem witness_FaultsArePrecise :
    step (one 0#64) = .next oneFaulted ∧ oneFaulted.fault = some ⟨.illegalCommand, 0, 0#64, none, none⟩ ∧
    Sys2Proof.core.run 1 (launch [0#64]) = .next oneFaulted := ⟨rfl, rfl, rfl⟩

theorem witness_OnlyResetClearsFault :
    oneFaulted.fault = some ⟨.illegalCommand, 0, 0#64, none, none⟩ ∧
    Sys2Proof.core.run 0 oneFaulted = .next oneFaulted := ⟨rfl, rfl⟩

/-- An illegal word at pc, and a command that raises a fault from a state with none. -/
theorem witness_FaultCodesFollowTheirTable :
    ((one 0#64).fault = none ∧ (one 0#64).prog[(one 0#64).pc]? = some 0#64 ∧
      decode 0#64 = .error (.unassignedOpcode 0)) ∧
    (let s := small (.written 0x800) .unwritten .unwritten (.newStd 9 1)
     s.fault = none ∧
     exec (.newStd 9 1) s = .next (raise s (encode (.newStd 9 1)) ⟨.stdRange, some .rs1, some 0x800⟩)) :=
  ⟨⟨rfl, rfl, by decide⟩, rfl, rfl⟩

/-- An illegal word; an unwritten source after a written one; and the three orders of value checks. -/
theorem witness_FirstFaultInPriorityOrderIsReported :
    ((one 0#64).fault = none ∧ (one 0#64).prog[(one 0#64).pc]? = some 0#64 ∧
      decode 0#64 = .error (.unassignedOpcode 0)) ∧
    (sources (.cmp 9 1 2) = [(.rs1, 1)] ++ (.rs2, 2) :: [] ∧
      holds (small (.written 7) .unwritten .unwritten (.cmp 9 1 2)) [(1, .written 7), (2, .unwritten)] = true) ∧
    (holds (small (.written 0x20000000) (.written 2) (.written 2) (.fromReg 9 1 2 3))
        [(1, .written 0x20000000), (2, .written 2), (3, .written 2)] = true ∧
      (0x20000000#32).extractLsb' 29 3 ≠ 0) ∧
    (holds (small (.written 0x1FFFFFFF) (.written 2) (.written 2) (.fromReg 9 1 2 3))
        [(1, .written 0x1FFFFFFF), (2, .written 2), (3, .written 2)] = true ∧
      (0x1FFFFFFF#32).extractLsb' 29 3 = 0 ∧ (2#32) ≠ 0 ∧ (2#32) ≠ 1) ∧
    (holds (small (.written 0x1FFFFFFF) (.written 1) (.written 2) (.fromReg 9 1 2 3))
        [(1, .written 0x1FFFFFFF), (2, .written 1), (3, .written 2)] = true) :=
  ⟨⟨rfl, rfl, by decide⟩, ⟨rfl, by decide⟩, by decide, by decide, by decide⟩

/-- The largest legal word, the first illegal one, and an unwritten source. -/
theorem witness_NewStdPlacesIdAtBit18 :
    (holds (small (.written 0x7FF) .unwritten .unwritten (.newStd 9 1)) [(1, .written 0x7FF)] = true ∧
      (0x7FF#32) ≤ 0x7FF#32) ∧
    (holds (small (.written 0x800) .unwritten .unwritten (.newStd 9 1)) [(1, .written 0x800)] = true ∧
      0x7FF#32 < 0x800#32) ∧
    holds (small .unwritten .unwritten .unwritten (.newStd 9 1)) [(1, .unwritten)] = true := by decide

/-- The largest legal word, the first illegal one, and an unwritten source. -/
theorem witness_NewExtPlacesIdAtBit0 :
    (holds (small (.written 0x1FFFFFFF) .unwritten .unwritten (.newExt 9 1)) [(1, .written 0x1FFFFFFF)] = true ∧
      (0x1FFFFFFF#32) ≤ 0x1FFFFFFF#32) ∧
    (holds (small (.written 0x20000000) .unwritten .unwritten (.newExt 9 1)) [(1, .written 0x20000000)] = true ∧
      0x1FFFFFFF#32 < 0x20000000#32) ∧
    holds (small .unwritten .unwritten .unwritten (.newExt 9 1)) [(1, .unwritten)] = true := by decide

/-- The largest legal raw word with both tags, and the unwritten sources; the faulting values are those of
witness_FirstFaultInPriorityOrderIsReported. -/
theorem witness_FromRegCombinesRawBitsAndFlags :
    (holds (small (.written 0x1FFFFFFF) (.written 1) (.written 0) (.fromReg 9 1 2 3))
        [(1, .written 0x1FFFFFFF), (2, .written 1), (3, .written 0)] = true ∧
      (0x1FFFFFFF#32).extractLsb' 29 3 = 0) ∧
    holds (small .unwritten .unwritten .unwritten (.fromReg 9 1 2 3)) [(1, .unwritten)] = true ∧
    holds (small (.written 0) .unwritten .unwritten (.fromReg 9 1 2 3)) [(1, .written 0), (2, .unwritten)] = true ∧
    holds (small (.written 0) (.written 0) .unwritten (.fromReg 9 1 2 3))
      [(1, .written 0), (2, .written 0), (3, .unwritten)] = true := ⟨by decide, by decide, by decide, by decide⟩

/-- Both Booleans, the first word that is neither, and each source unwritten. -/
theorem witness_WithRtrSetsOrClearsBit29 :
    holds (small (.written 0xFFFFFFFF) (.written 1) .unwritten (.withRtr 9 1 2))
      [(1, .written 0xFFFFFFFF), (2, .written 1)] = true ∧
    holds (small (.written 0xFFFFFFFF) (.written 0) .unwritten (.withRtr 9 1 2))
      [(1, .written 0xFFFFFFFF), (2, .written 0)] = true ∧
    (holds (small (.written 0) (.written 2) .unwritten (.withRtr 9 1 2)) [(1, .written 0), (2, .written 2)] = true ∧
      (2#32) ≠ 0 ∧ (2#32) ≠ 1) ∧
    holds (small .unwritten .unwritten .unwritten (.withRtr 9 1 2)) [(1, .unwritten)] = true ∧
    holds (small (.written 0) .unwritten .unwritten (.withRtr 9 1 2)) [(1, .written 0), (2, .unwritten)] = true :=
  ⟨by decide, by decide, by decide, by decide, by decide⟩

/-- A word of each identifier type, and an unwritten source. -/
theorem witness_ToIdReadsTheActiveField :
    (holds (small (.written 0x40000000) .unwritten .unwritten (.toId 9 1)) [(1, .written 0x40000000)] = true ∧
      (0x40000000#32).getLsbD 30 = true) ∧
    (holds (small (.written 0xBFFFFFFF) .unwritten .unwritten (.toId 9 1)) [(1, .written 0xBFFFFFFF)] = true ∧
      (0xBFFFFFFF#32).getLsbD 30 = false) ∧
    holds (small .unwritten .unwritten .unwritten (.toId 9 1)) [(1, .unwritten)] = true := by decide

/-- A source with every bit set, and an unwritten one: for FlagQueriesReadOneBit, RawIdMasksTo29Bits and
TypeTagsReadTheirFlag alike. -/
theorem witness_FlagQueriesReadOneBit :
    holds (small (.written 0xFFFFFFFF) .unwritten .unwritten (.isExt 9 1)) [(1, .written 0xFFFFFFFF)] = true ∧
    holds (small .unwritten .unwritten .unwritten (.isExt 9 1)) [(1, .unwritten)] = true := by decide

theorem witness_RawIdMasksTo29Bits :
    holds (small (.written 0xFFFFFFFF) .unwritten .unwritten (.rawId 9 1)) [(1, .written 0xFFFFFFFF)] = true ∧
    holds (small .unwritten .unwritten .unwritten (.rawId 9 1)) [(1, .unwritten)] = true := by decide

theorem witness_TypeTagsReadTheirFlag :
    holds (small (.written 0xFFFFFFFF) .unwritten .unwritten (.idType 9 1)) [(1, .written 0xFFFFFFFF)] = true ∧
    holds (small .unwritten .unwritten .unwritten (.frameKind 9 1)) [(1, .unwritten)] = true := by decide

/-- Two written sources, and each source unwritten. -/
theorem witness_CmpWritesOrderingWord :
    holds (small (.written 0x04000000) (.written 0x44000000) .unwritten (.cmp 9 1 2))
      [(1, .written 0x04000000), (2, .written 0x44000000)] = true ∧
    holds (small .unwritten (.written 0) .unwritten (.cmp 9 1 2)) [(1, .unwritten)] = true ∧
    holds (small (.written 0) .unwritten .unwritten (.cmp 9 1 2)) [(1, .written 0), (2, .unwritten)] = true := by decide

theorem witness_FromRegReconstructs : (0x7FFFFFFF#32).getLsbD 31 = false := by decide

theorem witness_QueriesAgreeWithEachOther : xtd ⟨0x40000000#32⟩ = true := by decide

/-- Two standard words that differ in every don't-care bit, two extended ones that differ in bit 31, and two words with
the same raw bits. -/
theorem witness_DontCareBitsAreIgnored :
    ((0x04000000#32).extractLsb' 18 13 = (0x8403FFFF#32).extractLsb' 18 13 ∧ (0x04000000#32).getLsbD 30 = false) ∧
    ((0x44000001#32).extractLsb' 18 13 = (0xC4000001#32).extractLsb' 18 13 ∧ (0x44000001#32).getLsbD 30 = true ∧
      (0x44000001#32).extractLsb' 0 18 = (0xC4000001#32).extractLsb' 0 18) ∧
    (0x1FFFFFFF#32).extractLsb' 0 29 = (0xFFFFFFFF#32).extractLsb' 0 29 := by decide

/-- A pair for each clause: below, above and equal within each type; at, above and below the base ID across types. -/
theorem witness_CmpFollowsArbitration :
    (((0x00000000#32).extractLsb' 18 11 < (0x00040000#32).extractLsb' 18 11) ∧
      (0x00000000#32).getLsbD 30 = false ∧ (0x00040000#32).getLsbD 30 = false) ∧
    ((0x04000000#32).extractLsb' 18 11 = (0x24000001#32).extractLsb' 18 11 ∧ (0x24000001#32).getLsbD 30 = false) ∧
    (((0x40000000#32).extractLsb' 0 29 < (0x40000001#32).extractLsb' 0 29) ∧
      (0x40000000#32).getLsbD 30 = true ∧ (0x40000001#32).getLsbD 30 = true) ∧
    ((0x40000007#32).extractLsb' 0 29 = (0x60000007#32).extractLsb' 0 29 ∧ (0x60000007#32).getLsbD 30 = true) ∧
    ((0x04000000#32).extractLsb' 18 11 ≤ (0x44000000#32).extractLsb' 18 11 ∧ (0x04000000#32).getLsbD 30 = false ∧
      (0x44000000#32).getLsbD 30 = true) ∧
    ((0x43FFFFFF#32).extractLsb' 18 11 < (0x04000000#32).extractLsb' 18 11 ∧ (0x43FFFFFF#32).getLsbD 30 = true) := by
  decide

theorem witness_CrossTypeNeverReadsRtr :
    idType ⟨0x04000000#32⟩ ≠ idType ⟨0x44000000#32⟩ ∧
    (idType ⟨0x04000000#32⟩ = .standard ∧ idType ⟨0x44000000#32⟩ = .extended ∧
      (0x04000000#32).extractLsb' 18 11 = (0x44000000#32).extractLsb' 18 11) ∧
    (idType ⟨0x04000000#32⟩ = idType ⟨0x08000000#32⟩ ∧ toId ⟨0x04000000#32⟩ ≠ toId ⟨0x08000000#32⟩) := by decide

theorem witness_CmpIsTotalPreorder :
    (Machine.cmp ⟨0x0C000000#32⟩ ⟨0x08000000#32⟩ = .lt ∧ Machine.cmp ⟨0x08000000#32⟩ ⟨0x04000000#32⟩ = .lt) ∧
    (Machine.cmp ⟨0x04000000#32⟩ ⟨0x04000001#32⟩ = .eq ∧ Machine.cmp ⟨0x04000001#32⟩ ⟨0x84000000#32⟩ = .eq) := by
  decide

/-- A standard frame among three contenders, and two winners that differ in a don't-care bit. -/
theorem witness_ArbitrationHasOneWinner :
    [(⟨0x44000000#32⟩ : Reg), ⟨0x04000000#32⟩] ≠ [] ∧
    IsWinner [⟨0x44000000#32⟩, ⟨0x04000000#32⟩, ⟨0x04000001#32⟩] ⟨0x04000000#32⟩ ∧
    IsWinner [⟨0x44000000#32⟩, ⟨0x04000000#32⟩, ⟨0x04000001#32⟩] ⟨0x04000001#32⟩ := by
  unfold IsWinner
  decide

end Sys2Proof.Tests
end

section
/-! Don't-care bits (spec/00_scope.md R15): the identifier and the flags are functions of the bits that R15 names, and
every query and the comparator see a register value through them alone. -/

namespace Sys2Proof.Machine

/-- Two words have the same field exactly when they have the same bits there. -/
theorem extractLsb'_eq_iff_getLsbD {n start len : Nat} {v w : BitVec n} :
    v.extractLsb' start len = w.extractLsb' start len ↔
      ∀ k, start ≤ k → k < start + len → v.getLsbD k = w.getLsbD k := by
  constructor
  · intro h k hstart hend
    have hk : start + (k - start) = k := by omega
    have hbit := congrArg (BitVec.getLsbD · (k - start)) h
    simpa [BitVec.getLsbD_extractLsb', hk, show k - start < len by omega] using hbit
  · intro h
    apply BitVec.eq_of_getLsbD_eq
    intro k hk
    simp only [BitVec.getLsbD_extractLsb', h (start + k) (by omega) (by omega)]

/-- The identifier is a function of bits 30 and 28..18, and of bits 17..0 where bit 30 is set. -/
theorem toId_congr {r r' : Reg} (hxtd : r.bits.getLsbD 30 = r'.bits.getLsbD 30)
    (hbase : r.bits.extractLsb' 18 11 = r'.bits.extractLsb' 18 11)
    (hlow : r.bits.getLsbD 30 = true → r.bits.extractLsb' 0 18 = r'.bits.extractLsb' 0 18) :
    toId r = toId r' := by
  cases hx : r.bits.getLsbD 30 with
  | false => rw [toId_of_standard r hx, toId_of_standard r' (hxtd ▸ hx), hbase]
  | true =>
    have hext : r.bits.extractLsb' 0 29 = r'.bits.extractLsb' 0 29 := by
      rw [extractLsb'_eq_iff_getLsbD] at hbase ⊢
      intro k _ hk
      rcases Nat.lt_or_ge k 18 with hlt | hge
      · exact extractLsb'_eq_iff_getLsbD.mp (hlow hx) k k.zero_le (by omega)
      · exact hbase k hge (by omega)
    rw [toId_of_extended r hx, toId_of_extended r' (hxtd ▸ hx), hext]

/-- The comparator sees each operand through its identifier and its RTR flag alone. -/
theorem cmp_congr {a a' b b' : Reg} (ha : toId a = toId a') (hb : toId b = toId b')
    (hrtrA : a.bits.getLsbD 29 = a'.bits.getLsbD 29) (hrtrB : b.bits.getLsbD 29 = b'.bits.getLsbD 29) :
    cmp a b = cmp a' b' := by
  simp only [cmp, rtrOrder_eq, ha, hb, hrtrA, hrtrB]

/-- Settles O39: agreement on bits 30..18 gives the same flags and base ID, hence by `toId_congr` the same identifier,
and every other read is a function of these; RAW_ID is the field of bits 28..0 itself. -/
theorem dontCareBitsAreIgnored : Obligations.DontCareBitsAreIgnored := by
  unfold Obligations.DontCareBitsAreIgnored
  refine ⟨fun r r' hhigh hlow => ?_, fun r r' hraw => by rw [rawId_eq_extract, rawId_eq_extract, hraw]⟩
  have hbit := extractLsb'_eq_iff_getLsbD.mp hhigh
  have hbit29 : r.bits.getLsbD 29 = r'.bits.getLsbD 29 := hbit 29 (by omega) (by omega)
  have hbit30 : r.bits.getLsbD 30 = r'.bits.getLsbD 30 := hbit 30 (by omega) (by omega)
  have hbase : r.bits.extractLsb' 18 11 = r'.bits.extractLsb' 18 11 :=
    extractLsb'_eq_iff_getLsbD.mpr fun k hk hk' => hbit k hk (by omega)
  have hid : toId r = toId r' := toId_congr hbit30 hbase hlow
  have hxtd : xtd r = xtd r' := by rw [xtd_eq_getLsbD, xtd_eq_getLsbD, hbit30]
  have hrtr : rtr r = rtr r' := by rw [rtr_eq_getLsbD, rtr_eq_getLsbD, hbit29]
  refine ⟨hid, hxtd, ?isStd, hrtr, ?idType, ?frameKind, ?cmpLeft, ?cmpRight⟩
  case isStd => rw [isStd, isStd, hxtd]
  case idType => rw [idType, idType, hxtd]
  case frameKind => rw [frameKind, frameKind, hrtr]
  case cmpLeft => exact fun b => cmp_congr hid rfl hbit29 rfl
  case cmpRight => exact fun b => cmp_congr rfl hid rfl hbit29

end Sys2Proof.Machine
end

section
/-! The decoder's other direction (spec/30_encoding.md R53, R57): a word that decodes is the encoder's word of what it
decodes to, because every field that the command's format does not use was checked to be zero. -/

namespace Sys2Proof

/-- A command that the fields of a word decode to has exactly those fields. -/
theorem fields_of_decodeFields {f : Fields} {i : Instr} (h : decodeFields f = .ok i) : i.fields = f := by
  obtain ⟨op, rd, rs1, rs2, rs3, res, imm⟩ := f
  unfold decodeFields at h
  split at h
  case h_14 => cases h
  all_goals
    obtain ⟨hzero, rfl⟩ := (Fields.require_ok ..).mp h
    simp_all [Instr.fields, Instr.opcode, fieldsL, fieldsU, fieldsB, fieldsT]

theorem encode_of_decode {w : CmdWord} {i : Instr} (h : decode w = .ok i) : encode i = w := by
  rw [encode, fields_of_decodeFields h, Fields.toWord_ofWord]

end Sys2Proof
end

section
/-! The causes that a command's operand checks can give (spec/60_exceptions.md R143): each has the field and the value
of R143's table, and none is F_ILLEGAL_COMMAND. -/

namespace Sys2Proof.Machine

/-- A cause whose record has the shape of R143's table, at any pc and word, and is not F_ILLEGAL_COMMAND. -/
def Cause.OfOperand (c : Cause) : Prop :=
  c.code ≠ .illegalCommand ∧ ∀ pc w, (⟨c.code, pc, w, c.field, c.value⟩ : FaultRecord).wellShaped = true

/-- A check or a rule that gives no cause but those of operands. -/
def OperandCausesOnly {α : Type} (e : Except Cause α) : Prop := ∀ c, e = .error c → c.OfOperand

namespace OperandCausesOnly
variable {α β : Type}

theorem ok (a : α) : OperandCausesOnly (.ok a : Except Cause α) := fun _ h => nomatch h

theorem error {c : Cause} (h : c.OfOperand) : OperandCausesOnly (.error c : Except Cause α) :=
  fun _ hc => Except.error.inj hc ▸ h

theorem bind {e : Except Cause α} {f : α → Except Cause β} (he : OperandCausesOnly e)
    (hf : ∀ a, OperandCausesOnly (f a)) : OperandCausesOnly (e.bind f) := by
  cases e with
  | ok a => exact hf a
  | error c => exact error (he c rfl)

theorem map {e : Except Cause α} (f : α → β) (he : OperandCausesOnly e) : OperandCausesOnly (e.map f) := by
  cases e with
  | ok a => exact ok (f a)
  | error c => exact error (he c rfl)

theorem of_readSlot (s : State) (f : SrcField) (n : SlotIdx) : OperandCausesOnly (readSlot s f n) := by
  obtain ⟨v, -, h⟩ | ⟨-, h⟩ := readSlot_cases s f n
  · exact h ▸ ok v
  · exact h ▸ error ⟨nofun, fun _ _ => rfl⟩

theorem of_stdIdOperand (v : Word) : OperandCausesOnly (stdIdOperand .rs1 v) := by
  by_cases hle : v ≤ 0x7FF#32
  · exact stdIdOperand_of_le .rs1 v hle ▸ ok _
  · have hlt := BitVec.not_le.mp hle
    exact stdIdOperand_of_lt .rs1 v hlt ▸ error ⟨nofun, fun _ _ => decide_eq_true hlt⟩

theorem of_extIdOperand (v : Word) : OperandCausesOnly (extIdOperand .rs1 v) := by
  by_cases hle : v ≤ 0x1FFFFFFF#32
  · exact extIdOperand_of_le .rs1 v hle ▸ ok _
  · have hlt := BitVec.not_le.mp hle
    exact extIdOperand_of_lt .rs1 v hlt ▸ error ⟨nofun, fun _ _ => decide_eq_true hlt⟩

theorem of_rawIdOperand (v : Word) : OperandCausesOnly (rawIdOperand .rs1 v) := by
  by_cases hz : v.extractLsb' 29 3 = 0
  · exact rawIdOperand_of_zero .rs1 v hz ▸ ok _
  · exact rawIdOperand_of_ne .rs1 v hz ▸ error ⟨nofun, fun _ _ => bne_iff_ne.mpr hz⟩

/-- A word that is neither 0 nor 1 is the cause of F_TAG_VALUE, in the two fields that hold tags. -/
theorem of_tagValue {f : SrcField} {v : Word} (hf : f ≠ .rs1) (h0 : v ≠ 0) (h1 : v ≠ 1) :
    OperandCausesOnly (.error ⟨.tagValue, some f, some v⟩ : Except Cause α) := by
  have hv : (v != 0 && v != 1) = true := Bool.and_eq_true_iff.mpr ⟨bne_iff_ne.mpr h0, bne_iff_ne.mpr h1⟩
  cases f with
  | rs1 => exact absurd rfl hf
  | rs2 => exact error ⟨nofun, fun _ _ => hv⟩
  | rs3 => exact error ⟨nofun, fun _ _ => hv⟩

theorem of_boolOperand (v : Word) : OperandCausesOnly (boolOperand .rs2 v) := by
  obtain ⟨-, h⟩ | ⟨-, h⟩ | ⟨h0, h1, h⟩ := boolOperand_cases .rs2 v
  · exact h ▸ ok _
  · exact h ▸ ok _
  · exact h ▸ of_tagValue (by decide) h0 h1

theorem of_frameKindOperand (v : Word) : OperandCausesOnly (frameKindOperand .rs2 v) := by
  obtain ⟨-, h⟩ | ⟨-, h⟩ | ⟨h0, h1, h⟩ := frameKindOperand_cases .rs2 v
  · exact h ▸ ok _
  · exact h ▸ ok _
  · exact h ▸ of_tagValue (by decide) h0 h1

theorem of_idTypeOperand (v : Word) : OperandCausesOnly (idTypeOperand .rs3 v) := by
  obtain ⟨-, h⟩ | ⟨-, h⟩ | ⟨h0, h1, h⟩ := idTypeOperand_cases .rs3 v
  · exact h ▸ ok _
  · exact h ▸ ok _
  · exact h ▸ of_tagValue (by decide) h0 h1

end OperandCausesOnly
end Sys2Proof.Machine
end

section
/-! A command's outcome, the word it writes or the cause it raises, is a function of its source slots (spec/10_state.md
R28; spec/20_memory.md R44, R46), and a cause is one of its operands. -/

namespace Sys2Proof.Machine

section Agree
variable {s s' : State} {w : CmdWord} {rd rs1 rs2 rs3 : SlotIdx}

theorem readSlot_congr {f : SrcField} {n : SlotIdx} (h : s.x[n] = s'.x[n]) : readSlot s f n = readSlot s' f n := by
  rw [readSlot, readSlot, h]

theorem unary_agree {rule : Word → Except Cause Word} (hrule : ∀ a, OperandCausesOnly (rule a))
    (h : ∀ p ∈ [(SrcField.rs1, rs1)], s.x[p.2] = s'.x[p.2]) :
    ∃ e, OperandCausesOnly e ∧ unary s w rd rs1 rule = finish s w rd e ∧
      unary s' w rd rs1 rule = finish s' w rd e := by
  have h1 : readSlot s .rs1 rs1 = readSlot s' .rs1 rs1 := readSlot_congr (h (.rs1, rs1) (by simp))
  exact ⟨_, (OperandCausesOnly.of_readSlot s .rs1 rs1).bind hrule, rfl, by rw [unary, h1]⟩

theorem binary_agree {rule : Word → Word → Except Cause Word} (hrule : ∀ a b, OperandCausesOnly (rule a b))
    (h : ∀ p ∈ [(SrcField.rs1, rs1), (.rs2, rs2)], s.x[p.2] = s'.x[p.2]) :
    ∃ e, OperandCausesOnly e ∧ binary s w rd rs1 rs2 rule = finish s w rd e ∧
      binary s' w rd rs1 rs2 rule = finish s' w rd e := by
  have h1 : readSlot s .rs1 rs1 = readSlot s' .rs1 rs1 := readSlot_congr (h (.rs1, rs1) (by simp))
  have h2 : readSlot s .rs2 rs2 = readSlot s' .rs2 rs2 := readSlot_congr (h (.rs2, rs2) (by simp))
  exact ⟨_, (OperandCausesOnly.of_readSlot s .rs1 rs1).bind fun a =>
    (OperandCausesOnly.of_readSlot s .rs2 rs2).bind (hrule a), rfl, by rw [binary, h1, h2]⟩

theorem ternary_agree {rule : Word → Word → Word → Except Cause Word}
    (hrule : ∀ a b c, OperandCausesOnly (rule a b c))
    (h : ∀ p ∈ [(SrcField.rs1, rs1), (.rs2, rs2), (.rs3, rs3)], s.x[p.2] = s'.x[p.2]) :
    ∃ e, OperandCausesOnly e ∧ ternary s w rd rs1 rs2 rs3 rule = finish s w rd e ∧
      ternary s' w rd rs1 rs2 rs3 rule = finish s' w rd e := by
  have h1 : readSlot s .rs1 rs1 = readSlot s' .rs1 rs1 := readSlot_congr (h (.rs1, rs1) (by simp))
  have h2 : readSlot s .rs2 rs2 = readSlot s' .rs2 rs2 := readSlot_congr (h (.rs2, rs2) (by simp))
  have h3 : readSlot s .rs3 rs3 = readSlot s' .rs3 rs3 := readSlot_congr (h (.rs3, rs3) (by simp))
  exact ⟨_, (OperandCausesOnly.of_readSlot s .rs1 rs1).bind fun a =>
    (OperandCausesOnly.of_readSlot s .rs2 rs2).bind fun b =>
    (OperandCausesOnly.of_readSlot s .rs3 rs3).bind (hrule a b), rfl, by rw [ternary, h1, h2, h3]⟩

end Agree

/-- Two states that agree on a command's sources give it one outcome: the same word to write, or the same cause to
raise, and that cause is one of its operands. -/
theorem exec_agree (i : Instr) {s s' : State} (h : ∀ p ∈ sources i, s.x[p.2] = s'.x[p.2]) :
    ∃ e, OperandCausesOnly e ∧ exec i s = finish s (encode i) (destination i) e ∧
      exec i s' = finish s' (encode i) (destination i) e := by
  cases i with
  | li rd imm => exact ⟨.ok imm, .ok imm, rfl, rfl⟩
  | newStd => exact unary_agree (fun v => (OperandCausesOnly.of_stdIdOperand v).map _) h
  | newExt => exact unary_agree (fun v => (OperandCausesOnly.of_extIdOperand v).map _) h
  | fromReg =>
    exact ternary_agree (fun v k t => (OperandCausesOnly.of_rawIdOperand v).bind fun _ =>
      (OperandCausesOnly.of_frameKindOperand k).bind fun _ => (OperandCausesOnly.of_idTypeOperand t).map _) h
  | withRtr => exact binary_agree (fun _ b => (OperandCausesOnly.of_boolOperand b).map _) h
  | toId => exact unary_agree (fun _ => .ok _) h
  | isExt => exact unary_agree (fun _ => .ok _) h
  | isStd => exact unary_agree (fun _ => .ok _) h
  | isRtr => exact unary_agree (fun _ => .ok _) h
  | rawId => exact unary_agree (fun _ => .ok _) h
  | idType => exact unary_agree (fun _ => .ok _) h
  | frameKind => exact unary_agree (fun _ => .ok _) h
  | cmp => exact binary_agree (fun _ _ => .ok _) h

/-- Settles O18: by `exec_agree` both runs end in the same word or the same cause. -/
theorem resultDependsOnlyOnSources : Obligations.ResultDependsOnlyOnSources := by
  unfold Obligations.ResultDependsOnlyOnSources
  intro i s s' t t' hagree hs hs' ht ht'
  obtain ⟨e, -, he, he'⟩ := exec_agree i hagree
  rw [ht] at he
  rw [ht'] at he'
  cases e with
  | ok v =>
    obtain rfl : t = complete s (destination i) v := Host.Outcome.next.inj he
    obtain rfl : t' = complete s' (destination i) v := Host.Outcome.next.inj he'
    exact .inl ⟨hs, hs', by rw [complete_slot_same, complete_slot_same]⟩
  | error c =>
    obtain rfl : t = raise s (encode i) c := Host.Outcome.next.inj he
    obtain rfl : t' = raise s' (encode i) c := Host.Outcome.next.inj he'
    exact .inr ⟨_, _, rfl, rfl, rfl, rfl, rfl⟩

end Sys2Proof.Machine
end

section
/-! The invariant of the harness state (spec/10_state.md R31; spec/60_exceptions.md R141 to R143). -/

namespace Sys2Proof.Machine

theorem wf_complete {s : State} {rd : SlotIdx} {v : Word} (hs : s.fault = none) (hpc : s.pc < s.prog.length) :
    (complete s rd v).wf :=
  ⟨hpc, fun _ hr => absurd (hs.symm.trans hr) nofun⟩

theorem wf_raise {s : State} {w : CmdWord} {c : Cause} (hw : s.prog[s.pc]? = some w)
    (hshape : (⟨c.code, s.pc, w, c.field, c.value⟩ : FaultRecord).wellShaped = true)
    (hcode : c.code = .illegalCommand ↔ ∀ i, decode w ≠ .ok i) : (raise s w c).wf := by
  obtain ⟨hpc, -⟩ := List.getElem?_eq_some_iff.mp hw
  refine ⟨hpc.le, fun r hr => ?_⟩
  obtain rfl := Option.some.inj hr
  exact ⟨rfl, hw, hshape, hcode⟩

/-- Settles O13: the state after a completed command has no record; an illegal word raises F_ILLEGAL_COMMAND; and a
command raises a cause of its operands, with its own word, which `encode_of_decode` says is the word at pc. -/
theorem stepKeepsHarnessInvariant : Obligations.StepKeepsHarnessInvariant := by
  unfold Obligations.StepKeepsHarnessInvariant
  intro s t _ hstep
  obtain ⟨w, hs, hw, ⟨e, hillegal, rfl⟩ | ⟨i, hdecode, hexec, -⟩⟩ := step_next_cases s t hstep
  · refine wf_raise hw rfl ⟨fun _ i hi => ?_, fun _ => rfl⟩
    cases hillegal.symm.trans hi
  · obtain ⟨hpc, -⟩ := List.getElem?_eq_some_iff.mp hw
    obtain ⟨e, hcause, he, -⟩ := exec_agree i (s := s) fun _ _ => rfl
    rw [hexec] at he
    cases e with
    | ok v =>
      obtain rfl : t = complete s (destination i) v := Host.Outcome.next.inj he
      exact wf_complete hs hpc
    | error c =>
      obtain ⟨hcode, hshape⟩ := hcause c rfl
      obtain rfl : t = raise s w c := encode_of_decode hdecode ▸ Host.Outcome.next.inj he
      exact wf_raise hw (hshape s.pc w) ⟨fun h => absurd h hcode, fun h => absurd hdecode (h i)⟩

end Sys2Proof.Machine
end

section
/-! What a step and a command change: pc, the destination slot, and nothing else (spec/10_state.md R30, R31). -/

namespace Sys2Proof.Machine

/-- A step with a successor starts inside the program with no fault recorded, and completes or raises. -/
theorem step_completes_or_raises {s t : State} (h : step s = .next t) :
    s.fault = none ∧ s.pc < s.prog.length ∧ ((∃ rd v, t = complete s rd v) ∨ ∃ w c, t = raise s w c) := by
  obtain ⟨w, hs, hw, hcases⟩ := step_next_cases s t h
  obtain ⟨hpc, -⟩ := List.getElem?_eq_some_iff.mp hw
  refine ⟨hs, hpc, ?_⟩
  obtain ⟨_, _, ht⟩ | ⟨i, _, _, ⟨v, ht⟩ | ⟨c, ht⟩⟩ := hcases
  · exact .inr ⟨w, _, ht⟩
  · exact .inl ⟨destination i, v, ht⟩
  · exact .inr ⟨encode i, c, ht⟩

/-- Settles O10: each clause is read off the two ways a step can end. -/
theorem pcAdvancesByOneOrStays : Obligations.PcAdvancesByOneOrStays := by
  unfold Obligations.PcAdvancesByOneOrStays
  refine ⟨?executesWordAtPc, ?advances, ?stays, ?atMostN, ?noStepAtN⟩
  case executesWordAtPc =>
    intro s t h
    obtain ⟨w, -, hw, ⟨e, he, -⟩ | ⟨i, hi, hexec, -⟩⟩ := step_next_cases s t h
    · exact ⟨w, hw, .inl ⟨e, he⟩⟩
    · exact ⟨w, hw, .inr ⟨i, hi, hexec⟩⟩
  case advances =>
    intro s t h hnone
    obtain ⟨-, -, ⟨rd, v, rfl⟩ | ⟨w, c, rfl⟩⟩ := step_completes_or_raises h
    · exact complete_pc ..
    · cases hnone
  case stays =>
    intro s t h hfault
    obtain ⟨hs, -, ⟨rd, v, rfl⟩ | ⟨w, c, rfl⟩⟩ := step_completes_or_raises h
    · exact absurd hs hfault
    · exact raise_pc ..
  case atMostN =>
    intro s t h
    obtain ⟨-, hpc, ⟨rd, v, rfl⟩ | ⟨w, c, rfl⟩⟩ := step_completes_or_raises h
    · exact hpc
    · exact hpc.le
  case noStepAtN =>
    intro s hN t h
    obtain ⟨-, hpc, -⟩ := step_completes_or_raises h
    exact hpc.ne hN

/-- Settles O17: by `exec_cases` the next state is a completion on the destination or a raise with the command's
word. -/
theorem commandChangesOnlyItsDestination : Obligations.CommandChangesOnlyItsDestination := by
  unfold Obligations.CommandChangesOnlyItsDestination
  intro i s t h
  obtain ⟨v, hv⟩ | ⟨c, hc⟩ := exec_cases i s
  · obtain rfl : t = complete s (destination i) v := Host.Outcome.next.inj (h.symm.trans hv)
    exact ⟨fun n hn => complete_slot_other s _ n v hn, rfl, .inl ⟨rfl, rfl, v, complete_slot_same ..⟩⟩
  · obtain rfl : t = raise s (encode i) c := Host.Outcome.next.inj (h.symm.trans hc)
    exact ⟨fun _ _ => rfl, rfl, .inr ⟨rfl, rfl, _, rfl, rfl, rfl⟩⟩

/-- Settles O19: a read of the destination sees the written word, and a read of another slot the slot as it was. -/
theorem slotReadSeesLatestWrite : Obligations.SlotReadSeesLatestWrite := by
  unfold Obligations.SlotReadSeesLatestWrite
  intro s rd n v f
  by_cases hn : n = rd
  · rw [if_pos hn, hn, readSlot_written _ _ _ v (complete_slot_same ..)]
  · rw [if_neg hn, readSlot_congr (complete_slot_other s rd n v hn)]

end Sys2Proof.Machine
end

section
/-! The bits that constructors place (spec/10_state.md R24) and those they leave clear. -/

namespace Sys2Proof.Machine

theorem newStd_bit31 (s : StdId) : (newStd s).bits.getLsbD 31 = false := by
  simp [newStd, Config.stdShift]

theorem newStd_low18 (s : StdId) : (newStd s).bits.extractLsb' 0 18 = 0 := by
  apply BitVec.eq_of_getLsbD_eq
  intro k hk
  simp [newStd, Config.stdShift, hk]

theorem newExt_bit31 (e : ExtId) : (newExt e).bits.getLsbD 31 = false := by
  simp [newExt, Config.xtdMask]

theorem placeRtr_bit31 (k : FrameKind) : (placeRtr k).getLsbD 31 = false := by cases k <;> rfl

theorem placeXtd_bit31 (t : IdType) : (placeXtd t).getLsbD 31 = false := by cases t <;> rfl

theorem fromReg_bit31 (raw : RawId) (k : FrameKind) (t : IdType) : (fromReg raw k t).bits.getLsbD 31 = false := by
  have hraw : (raw.bits.setWidth 32).getLsbD 31 = false := by simp
  rw [fromReg, BitVec.getLsbD_or, BitVec.getLsbD_or, hraw, placeRtr_bit31, placeXtd_bit31]
  rfl

theorem withRtr_bit31 (r : Reg) (b : Bool) : (withRtr r b).bits.getLsbD 31 = r.bits.getLsbD 31 := by
  cases b <;> simp [withRtr, Config.rtrMask]

/-- Settles O34, one constructor at a time. -/
theorem constructorsClearUnplacedBits : Obligations.ConstructorsClearUnplacedBits := by
  unfold Obligations.ConstructorsClearUnplacedBits
  exact ⟨fun s => ⟨newStd_bit31 s, newStd_low18 s⟩, newExt_bit31, fromReg_bit31, withRtr_bit31⟩

end Sys2Proof.Machine
end

section
/-! The slot words of values lose nothing (spec/10_state.md R27). -/

namespace Sys2Proof.Machine

/-- Zero extension loses nothing. -/
theorem setWidth_injective {m n : Nat} (h : m ≤ n) : Function.Injective (BitVec.setWidth n : BitVec m → BitVec n) :=
  fun a b hab => by
    have hback := congrArg (BitVec.setWidth m) hab
    rwa [BitVec.setWidth_setWidth_of_le a h, BitVec.setWidth_setWidth_of_le b h, BitVec.setWidth_eq,
      BitVec.setWidth_eq] at hback

theorem encReg_injective : Function.Injective encReg := fun ⟨_⟩ ⟨_⟩ h => congrArg Reg.mk h

theorem encStdId_injective : Function.Injective encStdId :=
  fun ⟨_⟩ ⟨_⟩ h => congrArg StdId.mk (setWidth_injective (by decide) h)

theorem encExtId_injective : Function.Injective encExtId :=
  fun ⟨_⟩ ⟨_⟩ h => congrArg ExtId.mk (setWidth_injective (by decide) h)

theorem encRawId_injective : Function.Injective encRawId :=
  fun ⟨_⟩ ⟨_⟩ h => congrArg RawId.mk (setWidth_injective (by decide) h)

theorem encBool_injective : Function.Injective encBool := by
  intro a b
  cases a <;> cases b <;> decide

theorem encIdType_injective : Function.Injective encIdType := by
  intro a b
  cases a <;> cases b <;> decide

theorem encFrameKind_injective : Function.Injective encFrameKind := by
  intro a b
  cases a <;> cases b <;> decide

theorem encOrdering_injective : Function.Injective encOrdering := by
  intro a b
  cases a <;> cases b <;> decide

theorem encId_standard_bit31 (s : StdId) : (encId (.standard s)).getLsbD 31 = false := by simp [encId, encStdId]

theorem encId_extended_bit31 (e : ExtId) : (encId (.extended e)).getLsbD 31 = true := by simp [encId]

theorem encId_extended_narrow (e : ExtId) : (encId (.extended e)).setWidth 29 = e.bits := by simp [encId, encExtId]

/-- Bit 31 tells the two types of identifier apart. -/
theorem encId_standard_ne_extended (s : StdId) (e : ExtId) : encId (.standard s) ≠ encId (.extended e) := by
  intro h
  have hbit := encId_standard_bit31 s
  rw [h, encId_extended_bit31] at hbit
  cases hbit

theorem encId_injective : Function.Injective encId := by
  intro a b h
  cases a with
  | standard s =>
    cases b with
    | standard s' => exact congrArg Id.standard (encStdId_injective h)
    | extended e' => exact absurd h (encId_standard_ne_extended s e')
  | extended e =>
    cases b with
    | standard s' => exact absurd h.symm (encId_standard_ne_extended s' e)
    | extended e' =>
      have hbits : e.bits = e'.bits := by rw [← encId_extended_narrow e, h, encId_extended_narrow]
      exact congrArg (Id.extended ∘ ExtId.mk) hbits

/-- Settles O40, one encoding at a time. -/
theorem slotEncodingsLoseNothing : Obligations.SlotEncodingsLoseNothing := by
  unfold Obligations.SlotEncodingsLoseNothing
  exact ⟨encReg_injective, encStdId_injective, encExtId_injective, encRawId_injective, encBool_injective,
    encIdType_injective, encFrameKind_injective, encId_injective, encOrdering_injective⟩

end Sys2Proof.Machine
end

section
/-! The program is fixed for the whole of a run (spec/20_memory.md R48). -/

namespace Sys2Proof.Machine

theorem exec_keeps_prog {i : Instr} {s t : State} (h : exec i s = .next t) : t.prog = s.prog := by
  obtain ⟨-, hprog, -⟩ := commandChangesOnlyItsDestination i s t h
  exact hprog

theorem step_keeps_prog {s t : State} (h : step s = .next t) : t.prog = s.prog := by
  obtain ⟨-, -, ⟨rd, v, rfl⟩ | ⟨w, c, rfl⟩⟩ := step_completes_or_raises h
  · exact complete_prog ..
  · exact raise_prog ..

theorem run_keeps_prog {k : Nat} {s t : State} (h : Sys2Proof.core.run k s = .next t) : t.prog = s.prog :=
  run_induction (fun u => u.prog = s.prog) (fun _ _ hu hstep => (step_keeps_prog hstep).trans hu) k s t rfl h

/-- Settles O12: a command keeps the program, and so does every step of a run. -/
theorem programIsImmutable : Obligations.ProgramIsImmutable := by
  unfold Obligations.ProgramIsImmutable
  exact ⟨fun _ _ _ => exec_keeps_prog, fun _ _ _ => run_keeps_prog⟩

end Sys2Proof.Machine
end

section
/-! A register value as bytes (spec/20_memory.md R42): the two layouts, and reading each back. -/

namespace Sys2Proof.Machine

/-- The four bytes of a word, put together again, are the word. -/
theorem append_bytes_eq (w : Word) :
    w.extractLsb' 24 8 ++ w.extractLsb' 16 8 ++ w.extractLsb' 8 8 ++ w.extractLsb' 0 8 = w := by
  have h16 : w.extractLsb' 24 8 ++ w.extractLsb' 16 8 = w.extractLsb' 16 16 :=
    BitVec.extractLsb'_append_extractLsb'_eq_extractLsb' (by rfl)
  have h24 : w.extractLsb' 16 16 ++ w.extractLsb' 8 8 = w.extractLsb' 8 24 :=
    BitVec.extractLsb'_append_extractLsb'_eq_extractLsb' (by rfl)
  have h32 : w.extractLsb' 8 24 ++ w.extractLsb' 0 8 = w.extractLsb' 0 32 :=
    BitVec.extractLsb'_append_extractLsb'_eq_extractLsb' (by rfl)
  rw [h16, h24, h32, BitVec.extractLsb'_eq_self]

theorem regToBytes_length (order : ByteOrder) (r : Reg) : (regToBytes order r).length = 4 := by
  cases order <;> rfl

theorem regToBytes_big (r : Reg) : regToBytes .big r = (regToBytes .little r).reverse := rfl

theorem regOfBytes_regToBytes (order : ByteOrder) (r : Reg) : regOfBytes order (regToBytes order r) = some r := by
  have hbits := congrArg (fun w => some (Reg.mk w)) (append_bytes_eq r.bits)
  cases order with
  | little => exact hbits
  | big => exact hbits

/-- Settles O47: the open byte order is one of the two that `regOfBytes_regToBytes` speaks of. -/
theorem serialisedRegisterIsReadBack : Obligations.SerialisedRegisterIsReadBack := by
  unfold Obligations.SerialisedRegisterIsReadBack
  exact ⟨regOfBytes_regToBytes,
    fun r => ⟨regOfBytes_regToBytes Config.regByteOrder r, regToBytes_length Config.regByteOrder r⟩, regToBytes_big⟩

end Sys2Proof.Machine
end

section
/-! The decoder and the encoder are inverse (spec/30_encoding.md R52 to R57): a word decodes to a command exactly when
its fields are that command's. So the operands of a word that decodes (R54) are read off its fields. -/

namespace Sys2Proof

theorem fields_wellFormed (i : Instr) : i.fields.wellFormed i.format = true := by
  cases i with
  | li rd imm => exact (Laws.EncodeWellFormed.li rd imm).1
  | newStd rd rs1 => exact (Laws.EncodeWellFormed.newStd rd rs1).1
  | newExt rd rs1 => exact (Laws.EncodeWellFormed.newExt rd rs1).1
  | fromReg rd rs1 rs2 rs3 => exact (Laws.EncodeWellFormed.fromReg rd rs1 rs2 rs3).1
  | withRtr rd rs1 rs2 => exact (Laws.EncodeWellFormed.withRtr rd rs1 rs2).1
  | toId rd rs1 => exact (Laws.EncodeWellFormed.toId rd rs1).1
  | isExt rd rs1 => exact (Laws.EncodeWellFormed.isExt rd rs1).1
  | isStd rd rs1 => exact (Laws.EncodeWellFormed.isStd rd rs1).1
  | isRtr rd rs1 => exact (Laws.EncodeWellFormed.isRtr rd rs1).1
  | rawId rd rs1 => exact (Laws.EncodeWellFormed.rawId rd rs1).1
  | idType rd rs1 => exact (Laws.EncodeWellFormed.idType rd rs1).1
  | frameKind rd rs1 => exact (Laws.EncodeWellFormed.frameKind rd rs1).1
  | cmp rd rs1 rs2 => exact (Laws.EncodeWellFormed.cmp rd rs1 rs2).1

/-- On a command's own fields, R57 finds that command and is left with the check of its format. -/
theorem decodeFields_fields (i : Instr) : decodeFields i.fields = i.fields.require i.format i := by
  cases i <;> rfl

theorem decode_encode (i : Instr) : decode (encode i) = .ok i := by
  rw [decode, encode, Fields.ofWord_toWord, decodeFields_fields, Fields.require_ok]
  exact ⟨fields_wellFormed i, rfl⟩

/-- Settles O1: the encoder's fields survive the word, and the decoder accepts them. -/
theorem decodeOfEncodeIsTheCommand : Obligations.DecodeOfEncodeIsTheCommand := decode_encode

/-- Settles O2: every field that the command does not use was checked to be zero. -/
theorem encodeOfDecodeIsTheWord : Obligations.EncodeOfDecodeIsTheWord := fun _ _ => encode_of_decode

theorem decode_eq_ok_iff (w : CmdWord) (i : Instr) : decode w = .ok i ↔ Fields.ofWord w = i.fields := by
  constructor
  · exact fun h => (fields_of_decodeFields h).symm
  · intro h
    rw [← Fields.toWord_ofWord w, h]
    exact decode_encode i

/-- Settles O6: the decoder evaluates on the six words. -/
theorem writtenOutWordsDecode : Obligations.WrittenOutWordsDecode := by
  unfold Obligations.WrittenOutWordsDecode
  decide

/-! Operands (R54). A slot's number is the value of its field, so each format's operands are read off its fields. -/

section Operands

variable {w : CmdWord} {op : BitVec 8} {rd rs1 rs2 rs3 : SlotIdx} {imm : Word}

theorem operands_of_fieldsL (h : Fields.ofWord w = fieldsL op rd imm) :
    rd.val = (w.extractLsb' 52 4).toNat ∧ imm = w.extractLsb' 0 32 :=
  ⟨congrArg (·.rd.toNat) h.symm, congrArg (·.imm) h.symm⟩

theorem operands_of_fieldsU (h : Fields.ofWord w = fieldsU op rd rs1) :
    rd.val = (w.extractLsb' 52 4).toNat ∧ rs1.val = (w.extractLsb' 48 4).toNat :=
  ⟨congrArg (·.rd.toNat) h.symm, congrArg (·.rs1.toNat) h.symm⟩

theorem operands_of_fieldsB (h : Fields.ofWord w = fieldsB op rd rs1 rs2) :
    rd.val = (w.extractLsb' 52 4).toNat ∧ rs1.val = (w.extractLsb' 48 4).toNat ∧
      rs2.val = (w.extractLsb' 44 4).toNat :=
  ⟨congrArg (·.rd.toNat) h.symm, congrArg (·.rs1.toNat) h.symm, congrArg (·.rs2.toNat) h.symm⟩

theorem operands_of_fieldsT (h : Fields.ofWord w = fieldsT op rd rs1 rs2 rs3) :
    rd.val = (w.extractLsb' 52 4).toNat ∧ rs1.val = (w.extractLsb' 48 4).toNat ∧
      rs2.val = (w.extractLsb' 44 4).toNat ∧ rs3.val = (w.extractLsb' 40 4).toNat :=
  ⟨congrArg (·.rd.toNat) h.symm, congrArg (·.rs1.toNat) h.symm, congrArg (·.rs2.toNat) h.symm,
    congrArg (·.rs3.toNat) h.symm⟩

end Operands

/-- Settles O4: the fields of a word that decodes are its command's. -/
theorem operandsComeFromTheirFields : Obligations.OperandsComeFromTheirFields := by
  unfold Obligations.OperandsComeFromTheirFields
  intro w
  cases hdec : decode w with
  | error e => trivial
  | ok i =>
    have hfields := (decode_eq_ok_iff w i).mp hdec
    cases i with
    | li => exact operands_of_fieldsL hfields
    | fromReg => exact operands_of_fieldsT hfields
    | withRtr | cmp => exact operands_of_fieldsB hfields
    | newStd | newExt | toId | isExt | isStd | isRtr | rawId | idType | frameKind =>
      exact operands_of_fieldsU hfields

end Sys2Proof
end

section
/-! Masks (spec/30_encoding.md R53). The mask of a format keeps the opcode and every field that the format requires to
be zero, so testing the masked word is testing those fields. -/

namespace Sys2Proof

/-- The fields of a format's mask: all ones where the format fixes the field. -/
def Format.maskFields : Format → Fields
  | .L => ⟨0xFF, 0, 0xF, 0xF, 0xF, 0xFF, 0⟩
  | .U => ⟨0xFF, 0, 0, 0xF, 0xF, 0xFF, 0xFFFFFFFF⟩
  | .B => ⟨0xFF, 0, 0, 0, 0xF, 0xFF, 0xFFFFFFFF⟩
  | .T => ⟨0xFF, 0, 0, 0, 0, 0xFF, 0xFFFFFFFF⟩

/-- The word `opcode << 56`: an opcode and nothing else. -/
def opcodeWord (op : BitVec 8) : CmdWord := Fields.toWord ⟨op, 0, 0, 0, 0, 0, 0⟩

theorem Fields.toWord_and_toWord (f g : Fields) :
    f.toWord &&& g.toWord = Fields.toWord ⟨f.opcode &&& g.opcode, f.rd &&& g.rd, f.rs1 &&& g.rs1, f.rs2 &&& g.rs2,
      f.rs3 &&& g.rs3, f.res &&& g.res, f.imm &&& g.imm⟩ := by
  unfold Fields.toWord
  iterate 5 refine BitVec.and_append.trans (congrArg (· ++ _) ?_)
  exact BitVec.and_append

theorem Fields.toWord_inj {f g : Fields} : f.toWord = g.toWord ↔ f = g := by
  constructor
  · intro h
    rw [← Fields.ofWord_toWord f, h, Fields.ofWord_toWord]
  · exact congrArg Fields.toWord

/-- R53's test of a word by the mask of a format is the test of its opcode and of the format's unused fields. -/
theorem masked_eq_opcodeWord_iff (w : CmdWord) (fmt : Format) (op : BitVec 8) :
    w &&& fmt.maskFields.toWord = opcodeWord op ↔
      (Fields.ofWord w).opcode = op ∧ (Fields.ofWord w).wellFormed fmt = true := by
  have hones8 (b : BitVec 8) : b &&& 0xFF#8 = b := BitVec.and_allOnes
  have hones4 (b : BitVec 4) : b &&& 0xF#4 = b := BitVec.and_allOnes
  have hones32 (b : BitVec 32) : b &&& 0xFFFFFFFF#32 = b := BitVec.and_allOnes
  conv_lhs => rw [← Fields.toWord_ofWord w]
  rw [Fields.toWord_and_toWord, opcodeWord, Fields.toWord_inj]
  cases fmt <;> simp [Format.maskFields, hones8, hones4, hones32]

section Select

variable {f : Fields} {op : BitVec 8}

theorem exists_eq_fieldsL_iff : (∃ rd imm, f = fieldsL op rd imm) ↔ f.opcode = op ∧ f.wellFormed .L = true := by
  constructor
  · rintro ⟨rd, imm, rfl⟩
    simp [fieldsL]
  · rintro ⟨rfl, hzero⟩
    refine ⟨slotOfField f.rd, f.imm, ?_⟩
    cases f
    simp_all [fieldsL]

theorem exists_eq_fieldsU_iff : (∃ rd rs1, f = fieldsU op rd rs1) ↔ f.opcode = op ∧ f.wellFormed .U = true := by
  constructor
  · rintro ⟨rd, rs1, rfl⟩
    simp [fieldsU]
  · rintro ⟨rfl, hzero⟩
    refine ⟨slotOfField f.rd, slotOfField f.rs1, ?_⟩
    cases f
    simp_all [fieldsU]

theorem exists_eq_fieldsB_iff :
    (∃ rd rs1 rs2, f = fieldsB op rd rs1 rs2) ↔ f.opcode = op ∧ f.wellFormed .B = true := by
  constructor
  · rintro ⟨rd, rs1, rs2, rfl⟩
    simp [fieldsB]
  · rintro ⟨rfl, hzero⟩
    refine ⟨slotOfField f.rd, slotOfField f.rs1, slotOfField f.rs2, ?_⟩
    cases f
    simp_all [fieldsB]

theorem exists_eq_fieldsT_iff :
    (∃ rd rs1 rs2 rs3, f = fieldsT op rd rs1 rs2 rs3) ↔ f.opcode = op ∧ f.wellFormed .T = true := by
  constructor
  · rintro ⟨rd, rs1, rs2, rs3, rfl⟩
    simp [fieldsT]
  · rintro ⟨rfl, hzero⟩
    refine ⟨slotOfField f.rd, slotOfField f.rs1, slotOfField f.rs2, slotOfField f.rs3, ?_⟩
    cases f
    simp_all [fieldsT]

end Select

section Masked

variable (w : CmdWord) (op : BitVec 8)

theorem decodes_fieldsL_iff {cmd : SlotIdx → Word → Instr} (hcmd : ∀ rd imm, (cmd rd imm).fields = fieldsL op rd imm) :
    (∃ rd imm, decode w = .ok (cmd rd imm)) ↔ w &&& Format.L.maskFields.toWord = opcodeWord op := by
  simp only [decode_eq_ok_iff, hcmd, exists_eq_fieldsL_iff, masked_eq_opcodeWord_iff]

theorem decodes_fieldsU_iff {cmd : SlotIdx → SlotIdx → Instr}
    (hcmd : ∀ rd rs1, (cmd rd rs1).fields = fieldsU op rd rs1) :
    (∃ rd rs1, decode w = .ok (cmd rd rs1)) ↔ w &&& Format.U.maskFields.toWord = opcodeWord op := by
  simp only [decode_eq_ok_iff, hcmd, exists_eq_fieldsU_iff, masked_eq_opcodeWord_iff]

theorem decodes_fieldsB_iff {cmd : SlotIdx → SlotIdx → SlotIdx → Instr}
    (hcmd : ∀ rd rs1 rs2, (cmd rd rs1 rs2).fields = fieldsB op rd rs1 rs2) :
    (∃ rd rs1 rs2, decode w = .ok (cmd rd rs1 rs2)) ↔ w &&& Format.B.maskFields.toWord = opcodeWord op := by
  simp only [decode_eq_ok_iff, hcmd, exists_eq_fieldsB_iff, masked_eq_opcodeWord_iff]

theorem decodes_fieldsT_iff {cmd : SlotIdx → SlotIdx → SlotIdx → SlotIdx → Instr}
    (hcmd : ∀ rd rs1 rs2 rs3, (cmd rd rs1 rs2 rs3).fields = fieldsT op rd rs1 rs2 rs3) :
    (∃ rd rs1 rs2 rs3, decode w = .ok (cmd rd rs1 rs2 rs3)) ↔
      w &&& Format.T.maskFields.toWord = opcodeWord op := by
  simp only [decode_eq_ok_iff, hcmd, exists_eq_fieldsT_iff, masked_eq_opcodeWord_iff]

end Masked

/-- Settles O3: the statement's masks and shifted opcodes are `Format.maskFields` and `opcodeWord`, put together. -/
theorem wordSelectsCommandByMask : Obligations.WordSelectsCommandByMask := by
  unfold Obligations.WordSelectsCommandByMask
  intro w
  exact ⟨decodes_fieldsL_iff w 0x01 fun _ _ => rfl,
    decodes_fieldsU_iff w 0x10 fun _ _ => rfl,
    decodes_fieldsU_iff w 0x11 fun _ _ => rfl,
    decodes_fieldsT_iff w 0x12 fun _ _ _ _ => rfl,
    decodes_fieldsB_iff w 0x13 fun _ _ _ => rfl,
    decodes_fieldsU_iff w 0x20 fun _ _ => rfl,
    decodes_fieldsU_iff w 0x21 fun _ _ => rfl,
    decodes_fieldsU_iff w 0x22 fun _ _ => rfl,
    decodes_fieldsU_iff w 0x23 fun _ _ => rfl,
    decodes_fieldsU_iff w 0x24 fun _ _ => rfl,
    decodes_fieldsU_iff w 0x25 fun _ _ => rfl,
    decodes_fieldsU_iff w 0x26 fun _ _ => rfl,
    decodes_fieldsB_iff w 0x30 fun _ _ _ => rfl⟩

end Sys2Proof
end

section
/-! Reserved encodings (spec/30_encoding.md R57, R58): a word is legal only if its fields are those of some command. -/

namespace Sys2Proof

/-- A word is illegal whose fields lack what every command's fields have. -/
theorem exists_error_of_not {w : CmdWord} (P : Fields → Prop) (hall : ∀ i : Instr, P i.fields)
    (hnot : ¬ P (Fields.ofWord w)) : ∃ e, decode w = .error e := by
  cases hdec : decode w with
  | error e => exact ⟨e, rfl⟩
  | ok i =>
    rw [(decode_eq_ok_iff w i).mp hdec] at hnot
    exact absurd (hall i) hnot

/-- The opcodes that R58 leaves unassigned. -/
def UnassignedOpcode (op : Nat) : Prop :=
  op = 0 ∨ (0x02 ≤ op ∧ op ≤ 0x0F) ∨ (0x14 ≤ op ∧ op ≤ 0x1F) ∨ (0x27 ≤ op ∧ op ≤ 0x2F) ∨ 0x31 ≤ op

theorem fields_opcode_assigned (i : Instr) : ¬ UnassignedOpcode i.fields.opcode.toNat := by
  unfold UnassignedOpcode
  cases i <;> simp [Instr.fields, Instr.opcode, fieldsL, fieldsU, fieldsB, fieldsT]

theorem fields_res (i : Instr) : i.fields.res = 0 := by cases i <;> rfl

/-- Only LI has a literal. -/
theorem fields_imm (i : Instr) (hop : i.fields.opcode.toNat ≠ 0x01) : i.fields.imm = 0 := by
  cases i with
  | li => exact absurd rfl hop
  | _ => rfl

/-- Only FROM_REG is of format T. -/
theorem fields_rs3 (i : Instr) (hop : i.fields.opcode.toNat ≠ 0x12) : i.fields.rs3 = 0 := by
  cases i with
  | fromReg => exact absurd rfl hop
  | _ => rfl

/-- Only FROM_REG, WITH_RTR and CMP have a second source. -/
theorem fields_rs2 (i : Instr) (hT : i.fields.opcode.toNat ≠ 0x12) (hWithRtr : i.fields.opcode.toNat ≠ 0x13)
    (hCmp : i.fields.opcode.toNat ≠ 0x30) : i.fields.rs2 = 0 := by
  cases i with
  | fromReg => exact absurd rfl hT
  | withRtr => exact absurd rfl hWithRtr
  | cmp => exact absurd rfl hCmp
  | _ => rfl

theorem fields_rs1_of_li (i : Instr) (hop : i.fields.opcode.toNat = 0x01) : i.fields.rs1 = 0 := by
  cases i with
  | li => rfl
  | _ => exact absurd hop (by simp [Instr.fields, Instr.opcode, fieldsU, fieldsB, fieldsT])

/-- Settles O5: each clause names a property that every command's fields have. -/
theorem reservedEncodingsAreIllegal : Obligations.ReservedEncodingsAreIllegal := by
  unfold Obligations.ReservedEncodingsAreIllegal
  intro w op rs1F rs2F rs3F resF immF
  refine ⟨fun hop => ?_, fun hres => ?_, fun hop himm => ?_, fun hop hrs3 => ?_, fun hT hWithRtr hCmp hrs2 => ?_,
    fun hop hrs1 => ?_⟩
  · exact exists_error_of_not (¬ UnassignedOpcode ·.opcode.toNat) fields_opcode_assigned (not_not_intro hop)
  · exact exists_error_of_not (·.res = 0) fields_res hres
  · exact exists_error_of_not (fun f => f.opcode.toNat ≠ 0x01 → f.imm = 0) fields_imm fun h => himm (h hop)
  · exact exists_error_of_not (fun f => f.opcode.toNat ≠ 0x12 → f.rs3 = 0) fields_rs3 fun h => hrs3 (h hop)
  · exact exists_error_of_not
      (fun f => f.opcode.toNat ≠ 0x12 → f.opcode.toNat ≠ 0x13 → f.opcode.toNat ≠ 0x30 → f.rs2 = 0) fields_rs2
      fun h => hrs2 (h hT hWithRtr hCmp)
  · exact exists_error_of_not (fun f => f.opcode.toNat = 0x01 → f.rs1 = 0) fields_rs1_of_li fun h => hrs1 (h hop)

end Sys2Proof
end

section
/-! The assembler reads its listing (spec/30_encoding.md R59, R60; notes/assumptions/12.md): the mnemonic and the
operands of a listed line are tokens, so stripping the comment, trimming and cutting the line at its first blank and at
its commas give them back, and each of them is read as what it was written for. -/

namespace Sys2Proof.Machine

/-! Tokens. -/

/-- A character that no step of reading a line stops at: no blank, no comma and no comment sign. -/
def isTokenChar (c : Char) : Bool := !isBlank c && c != ',' && c != '#'

/-- A text of one token or more characters, all of them token characters: a mnemonic or an operand. -/
def IsToken (t : List Char) : Prop := t ≠ [] ∧ t.all isTokenChar = true

theorem IsToken.not_blank {t : List Char} (ht : IsToken t) {c : Char} (hc : c ∈ t) : isBlank c = false := by
  have hchar := List.all_eq_true.mp ht.2 c hc
  simp only [isTokenChar, Bool.and_eq_true, Bool.not_eq_true'] at hchar
  exact hchar.1.1

theorem IsToken.notMem {t : List Char} (ht : IsToken t) {c : Char} (hc : isTokenChar c = false) : c ∉ t := fun h =>
  absurd (List.all_eq_true.mp ht.2 c h) (Bool.eq_false_iff.mp hc)

theorem IsToken.reverse {t : List Char} (ht : IsToken t) : IsToken t.reverse := by
  simpa [IsToken] using ht

theorem isToken_mnemonic (i : Instr) : IsToken (mnemonic i) := by
  cases i <;> exact ⟨List.cons_ne_nil _ _, rfl⟩

theorem isToken_slotText : ∀ n : SlotIdx, IsToken (slotText n) := by
  unfold IsToken
  decide

theorem isTokenChar_digitChar : ∀ n : Fin 16, isTokenChar (digitChar n) = true := by decide

theorem isToken_literalText (w : Word) : IsToken (literalText w) := by
  refine ⟨List.cons_ne_nil _ _, List.all_eq_true.mpr fun c hc => ?_⟩
  simp only [literalText, List.mem_cons, List.mem_map] at hc
  obtain rfl | rfl | ⟨k, -, rfl⟩ := hc
  · decide
  · decide
  · exact isTokenChar_digitChar (w.extractLsb' k 4).toFin

theorem isToken_of_mem_operandTexts {i : Instr} {t : List Char} (ht : t ∈ operandTexts i) : IsToken t := by
  have hslots (l : List SlotIdx) (h : t ∈ l.map slotText) : IsToken t := by
    obtain ⟨n, -, rfl⟩ := List.mem_map.mp h
    exact isToken_slotText n
  cases i with
  | li rd imm =>
    obtain rfl | rfl := List.mem_pair.mp ht
    · exact isToken_slotText rd
    · exact isToken_literalText imm
  | fromReg rd rs1 rs2 rs3 => exact hslots [rd, rs1, rs2, rs3] ht
  | withRtr rd rs1 rs2 | cmp rd rs1 rs2 => exact hslots [rd, rs1, rs2] ht
  | newStd rd rs1 | newExt rd rs1 | toId rd rs1 | isExt rd rs1 | isStd rd rs1 | isRtr rd rs1 | rawId rd rs1
  | idType rd rs1 | frameKind rd rs1 => exact hslots [rd, rs1] ht

theorem operandTexts_ne_nil (i : Instr) : operandTexts i ≠ [] := by
  cases i <;> exact List.cons_ne_nil _ _

/-! Trimming: a text that begins and ends with a token has no blank to lose. -/

theorem IsToken.dropWhile_append {t : List Char} (ht : IsToken t) (cs : List Char) :
    (t ++ cs).dropWhile isBlank = t ++ cs := by
  obtain ⟨c, t, rfl⟩ := List.exists_cons_of_ne_nil ht.1
  simp [ht.not_blank List.mem_cons_self]

theorem trim_eq_self {a b cs : List Char} (ha : IsToken a) (hb : IsToken b) (hbegin : a <+: cs) (hend : b <:+ cs) :
    trim cs = cs := by
  have hleft : cs.dropWhile isBlank = cs := by
    obtain ⟨m, rfl⟩ := hbegin
    exact ha.dropWhile_append m
  have hright : cs.reverse.dropWhile isBlank = cs.reverse := by
    obtain ⟨m, rfl⟩ := hend
    rw [List.reverse_append]
    exact hb.reverse.dropWhile_append _
  rw [trim, hleft, hright, List.reverse_reverse]

theorem IsToken.trim_eq {t : List Char} (ht : IsToken t) : trim t = t :=
  trim_eq_self ht ht List.prefix_rfl List.suffix_rfl

theorem trim_space_cons (cs : List Char) : trim (' ' :: cs) = trim cs := by
  simp [trim, isBlank]

/-! Cutting at commas. -/

theorem splitAtChar_of_not_mem {sep : Char} {t : List Char} (h : sep ∉ t) : splitAtChar sep t = [t] := by
  induction t with
  | nil => rfl
  | cons c t ih =>
    obtain ⟨hc, ht⟩ := not_or.mp (mt List.mem_cons.mpr h)
    simp [splitAtChar, Ne.symm hc, ih ht]

theorem splitAtChar_append_sep {sep : Char} {t : List Char} (h : sep ∉ t) (cs : List Char) :
    splitAtChar sep (t ++ sep :: cs) = t :: splitAtChar sep cs := by
  induction t with
  | nil => simp [splitAtChar]
  | cons c t ih =>
    obtain ⟨hc, ht⟩ := not_or.mp (mt List.mem_cons.mpr h)
    simp [splitAtChar, Ne.symm hc, ih ht]

theorem IsToken.comma_notMem_space_cons {t : List Char} (ht : IsToken t) : ',' ∉ ' ' :: t := by
  simpa using ht.notMem (c := ',') rfl

/-- Joined operands, cut at the commas and trimmed, are the operands. -/
theorem trim_split_joinOperands {ts : List (List Char)} (hne : ts ≠ []) (hts : ∀ t ∈ ts, IsToken t) :
    (splitAtChar ',' (' ' :: joinOperands ts)).map trim = ts := by
  induction ts with
  | nil => exact absurd rfl hne
  | cons t ts ih =>
    have ht : IsToken t := hts t List.mem_cons_self
    cases ts with
    | nil =>
      rw [joinOperands, splitAtChar_of_not_mem ht.comma_notMem_space_cons, List.map_singleton, trim_space_cons,
        ht.trim_eq]
    | cons t' ts =>
      have hrest := ih (List.cons_ne_nil t' ts) fun u hu => hts u (List.mem_cons_of_mem t hu)
      rw [joinOperands, ← List.cons_append, splitAtChar_append_sep ht.comma_notMem_space_cons, List.map_cons, hrest,
        trim_space_cons, ht.trim_eq]
      exact List.cons_ne_nil t' ts

/-! The listed line. -/

/-- Joined operands end with one of them. -/
theorem exists_suffix_joinOperands {ts : List (List Char)} (hne : ts ≠ []) : ∃ t ∈ ts, t <:+ joinOperands ts := by
  induction ts with
  | nil => exact absurd rfl hne
  | cons t ts ih =>
    cases ts with
    | nil => exact ⟨t, List.mem_cons_self, List.suffix_rfl⟩
    | cons t' ts =>
      obtain ⟨u, hu, hsuffix⟩ := ih (List.cons_ne_nil t' ts)
      refine ⟨u, List.mem_cons_of_mem t hu, hsuffix.trans ?_⟩
      exact ⟨t ++ [',', ' '], by simp [joinOperands]⟩

theorem hash_notMem_joinOperands {ts : List (List Char)} (hts : ∀ t ∈ ts, IsToken t) : '#' ∉ joinOperands ts := by
  induction ts with
  | nil => exact List.not_mem_nil
  | cons t ts ih =>
    have ht : '#' ∉ t := (hts t List.mem_cons_self).notMem rfl
    cases ts with
    | nil => exact ht
    | cons t' ts =>
      have hrest := ih fun u hu => hts u (List.mem_cons_of_mem t hu)
      simp [joinOperands, ht, hrest]

theorem stripComment_eq_self {cs : List Char} (h : '#' ∉ cs) : stripComment cs = cs := by
  refine List.takeWhile_eq_self_iff.mpr fun c hc => ?_
  simp only [bne_iff_ne]
  rintro rfl
  exact h hc

/-- A token followed by a blank is cut off at that blank. -/
theorem IsToken.takeWhile_append_space {t : List Char} (ht : IsToken t) (cs : List Char) :
    (t ++ ' ' :: cs).takeWhile (fun c => !isBlank c) = t := by
  rw [List.takeWhile_append_of_pos]
  · simp [isBlank]
  · intro c hc
    simp [ht.not_blank hc]

theorem IsToken.dropWhile_append_space {t : List Char} (ht : IsToken t) (cs : List Char) :
    (t ++ ' ' :: cs).dropWhile (fun c => !isBlank c) = ' ' :: cs := by
  rw [List.dropWhile_append_of_pos]
  · simp [isBlank]
  · intro c hc
    simp [ht.not_blank hc]

theorem stripComment_listing (i : Instr) : stripComment (listing i) = listing i := by
  refine stripComment_eq_self ?_
  have hname : '#' ∉ mnemonic i := (isToken_mnemonic i).notMem rfl
  have hops := hash_notMem_joinOperands fun t => isToken_of_mem_operandTexts (i := i) (t := t)
  simp [listing, hname, hops]

theorem trim_listing (i : Instr) : trim (listing i) = listing i := by
  obtain ⟨t, ht, hsuffix⟩ := exists_suffix_joinOperands (operandTexts_ne_nil i)
  have hend : joinOperands (operandTexts i) <:+ listing i := ⟨mnemonic i ++ [' '], by simp [listing]⟩
  exact trim_eq_self (isToken_mnemonic i) (isToken_of_mem_operandTexts ht) ⟨_, rfl⟩ (hsuffix.trans hend)

theorem listing_ne_nil (i : Instr) : listing i ≠ [] := by
  simp [listing]

/-- A listed line is read as its mnemonic and its operands. -/
theorem assembleLine_listing (i : Instr) :
    assembleLine (listing i) = (parseCommand (mnemonic i) (operandTexts i)).map some := by
  have hbody : (listing i).isEmpty = false := List.isEmpty_eq_false_iff.mpr (listing_ne_nil i)
  have hops := trim_split_joinOperands (operandTexts_ne_nil i) fun t => isToken_of_mem_operandTexts (i := i) (t := t)
  simp only [assembleLine, stripComment_listing, trim_listing, hbody, Bool.false_eq_true, if_false]
  rw [listing, (isToken_mnemonic i).takeWhile_append_space, (isToken_mnemonic i).dropWhile_append_space, hops]

/-! Operands. -/

@[simp] theorem parseSlot_slotText : ∀ n : SlotIdx, parseSlot (slotText n) = some n := by decide

theorem digitValue_digitChar : ∀ n : Fin 16, digitValue 16 (digitChar n) = some n.val := by decide

/-- The bits of a word from bit k + 4 on, and the four bits from bit k on below them, are its bits from bit k on. -/
theorem shiftRight_mul_add_nibble (w : Word) (k : Nat) :
    (w.toNat >>> (k + 4)) * 16 + (w.extractLsb' k 4).toNat = w.toNat >>> k := by
  rw [BitVec.extractLsb'_toNat, Nat.shiftRight_add, Nat.shiftRight_eq_div_pow _ 4]
  omega

/-- With a word's bits from bit k + 4 on read, the digit of the next four bits leaves its bits from bit k on read. -/
theorem digitsValue_nibble (w : Word) (k : Nat) (cs : List Char) :
    digitsValue 16 (w.toNat >>> (k + 4)) (digitChar (w.extractLsb' k 4).toNat :: cs) =
      digitsValue 16 (w.toNat >>> k) cs := by
  have hdigit := digitValue_digitChar (w.extractLsb' k 4).toFin
  simp only [BitVec.val_toFin] at hdigit
  rw [digitsValue, hdigit, Option.bind_some, shiftRight_mul_add_nibble]

theorem parseDigits_literalText (w : Word) : parseDigits 16 ((literalText w).drop 2) = some w.toNat := by
  have hstart (cs : List Char) : digitsValue 16 0 cs = digitsValue 16 (w.toNat >>> (28 + 4)) cs := by
    rw [Nat.shiftRight_eq_zero w.toNat 32 w.isLt]
  simp only [literalText, List.drop_succ_cons, List.drop_zero, List.map_cons, List.map_nil, parseDigits]
  rw [hstart, digitsValue_nibble w 28, digitsValue_nibble w 24, digitsValue_nibble w 20, digitsValue_nibble w 16,
    digitsValue_nibble w 12, digitsValue_nibble w 8, digitsValue_nibble w 4, digitsValue_nibble w 0]
  rfl

@[simp] theorem parseLiteral_literalText (w : Word) : parseLiteral (literalText w) = some w := by
  have hle : w.toNat ≤ 0xFFFFFFFF := Nat.le_of_lt_succ w.isLt
  change (parseDigits 16 ((literalText w).drop 2)).bind _ = _
  simp [parseDigits_literalText, hle]

/-- A command's mnemonic and operands are read as the command. -/
theorem parseCommand_operandTexts (i : Instr) : parseCommand (mnemonic i) (operandTexts i) = some i := by
  cases i with
  | li rd imm => simp [parseCommand, operandTexts, mnemonic]
  | fromReg rd rs1 rs2 rs3 => simp [parseCommand, operandTexts, parseTernary]
  | withRtr rd rs1 rs2 | cmp rd rs1 rs2 =>
    simp [parseCommand, operandTexts, parseBinary, mnemonic]
  | newStd rd rs1 | newExt rd rs1 | toId rd rs1 | isExt rd rs1 | isStd rd rs1 | isRtr rd rs1 | rawId rd rs1
  | idType rd rs1 | frameKind rd rs1 =>
    simp [parseCommand, operandTexts, parseUnary, mnemonic]

/-- Settles O48: the line is cut back into the mnemonic and the operands, and these are read as the command. -/
theorem assemblerReadsItsListing : Obligations.AssemblerReadsItsListing := by
  unfold Obligations.AssemblerReadsItsListing
  intro i
  rw [assembleLine_listing, parseCommand_operandTexts, Option.map_some]

end Sys2Proof.Machine
end

section
/-! What a command does when a source is unwritten (spec/10_state.md R30; spec/60_exceptions.md R144), and what the tag
operands answer for the words that are no tag (R143). -/

namespace Sys2Proof.Machine

section Unwritten
variable {s : State} {w : CmdWord} {rd rs1 rs2 rs3 : SlotIdx}

theorem unary_unwritten {rule : Word → Except Cause Word} (h : s.x[rs1] = .unwritten) :
    unary s w rd rs1 rule = .next (raise s w ⟨.unwrittenSlot, some .rs1, none⟩) := by
  rw [unary, readSlot_unwritten s .rs1 rs1 h]
  rfl

theorem binary_unwritten_rs1 {rule : Word → Word → Except Cause Word} (h : s.x[rs1] = .unwritten) :
    binary s w rd rs1 rs2 rule = .next (raise s w ⟨.unwrittenSlot, some .rs1, none⟩) := by
  rw [binary, readSlot_unwritten s .rs1 rs1 h]
  rfl

theorem binary_unwritten_rs2 {rule : Word → Word → Except Cause Word} {a : Word} (h1 : s.x[rs1] = .written a)
    (h2 : s.x[rs2] = .unwritten) :
    binary s w rd rs1 rs2 rule = .next (raise s w ⟨.unwrittenSlot, some .rs2, none⟩) := by
  rw [binary, readSlot_written s .rs1 rs1 a h1, readSlot_unwritten s .rs2 rs2 h2]
  rfl

theorem ternary_unwritten_rs1 {rule : Word → Word → Word → Except Cause Word} (h : s.x[rs1] = .unwritten) :
    ternary s w rd rs1 rs2 rs3 rule = .next (raise s w ⟨.unwrittenSlot, some .rs1, none⟩) := by
  rw [ternary, readSlot_unwritten s .rs1 rs1 h]
  rfl

theorem ternary_unwritten_rs2 {rule : Word → Word → Word → Except Cause Word} {a : Word}
    (h1 : s.x[rs1] = .written a) (h2 : s.x[rs2] = .unwritten) :
    ternary s w rd rs1 rs2 rs3 rule = .next (raise s w ⟨.unwrittenSlot, some .rs2, none⟩) := by
  rw [ternary, readSlot_written s .rs1 rs1 a h1, readSlot_unwritten s .rs2 rs2 h2]
  rfl

theorem ternary_unwritten_rs3 {rule : Word → Word → Word → Except Cause Word} {a b : Word}
    (h1 : s.x[rs1] = .written a) (h2 : s.x[rs2] = .written b) (h3 : s.x[rs3] = .unwritten) :
    ternary s w rd rs1 rs2 rs3 rule = .next (raise s w ⟨.unwrittenSlot, some .rs3, none⟩) := by
  rw [ternary, readSlot_written s .rs1 rs1 a h1, readSlot_written s .rs2 rs2 b h2, readSlot_unwritten s .rs3 rs3 h3]
  rfl

end Unwritten

section Tags
variable (f : SrcField) {v : Word}

theorem boolOperand_of_ne (h0 : v ≠ 0) (h1 : v ≠ 1) : boolOperand f v = .error ⟨.tagValue, some f, some v⟩ := by
  rw [boolOperand, if_neg h0, if_neg h1]

theorem frameKindOperand_of_ne (h0 : v ≠ 0) (h1 : v ≠ 1) :
    frameKindOperand f v = .error ⟨.tagValue, some f, some v⟩ := by
  rw [frameKindOperand, if_neg h0, if_neg h1]

theorem idTypeOperand_of_ne (h0 : v ≠ 0) (h1 : v ≠ 1) :
    idTypeOperand f v = .error ⟨.tagValue, some f, some v⟩ := by
  rw [idTypeOperand, if_neg h0, if_neg h1]

/-- A frame-kind word that is accepted is the slot word of the kind (R27). -/
theorem frameKindOperand_of_tag (h : v = 0 ∨ v = 1) :
    ∃ k, frameKindOperand f v = .ok k ∧ encFrameKind k = v := by
  obtain rfl | rfl := h
  · exact ⟨.data, rfl, rfl⟩
  · exact ⟨.remote, rfl, rfl⟩

/-- An identifier-type word that is accepted is the slot word of the type (R27). -/
theorem idTypeOperand_of_tag (h : v = 0 ∨ v = 1) :
    ∃ t, idTypeOperand f v = .ok t ∧ encIdType t = v := by
  obtain rfl | rfl := h
  · exact ⟨.standard, rfl, rfl⟩
  · exact ⟨.extended, rfl, rfl⟩

end Tags

end Sys2Proof.Machine
end

section
/-! The constructor commands and WITH_RTR (spec/40_construct.md R70 to R76): each is its function over checked operands,
so a clause names the branch of each check and the rest is evaluation. -/

namespace Sys2Proof.Machine

section Commands
variable (s : State) (rd rs1 rs2 rs3 : SlotIdx)

theorem exec_newStd : exec (.newStd rd rs1) s = unary s (encode (.newStd rd rs1)) rd rs1 fun v =>
    (stdIdOperand .rs1 v).map fun id => encReg (newStd id) := rfl

theorem exec_newExt : exec (.newExt rd rs1) s = unary s (encode (.newExt rd rs1)) rd rs1 fun v =>
    (extIdOperand .rs1 v).map fun id => encReg (newExt id) := rfl

theorem exec_fromReg : exec (.fromReg rd rs1 rs2 rs3) s =
    ternary s (encode (.fromReg rd rs1 rs2 rs3)) rd rs1 rs2 rs3 fun v k t =>
      (rawIdOperand .rs1 v).bind fun raw => (frameKindOperand .rs2 k).bind fun kind =>
        (idTypeOperand .rs3 t).map fun type => encReg (fromReg raw kind type) := rfl

theorem exec_withRtr : exec (.withRtr rd rs1 rs2) s = binary s (encode (.withRtr rd rs1 rs2)) rd rs1 rs2 fun v b =>
    (boolOperand .rs2 b).map fun flag => encReg (withRtr (regOperand v) flag) := rfl

end Commands

/-- Settles O25. The checked operand is the word's bits 10..0. -/
theorem newStdPlacesIdAtBit18 : Obligations.NewStdPlacesIdAtBit18 := by
  unfold Obligations.NewStdPlacesIdAtBit18
  intro s rd rs1
  refine ⟨?inRange, ?outOfRange, ?unwritten⟩
  case inRange =>
    intro v hv hle
    rw [exec_newStd, unary_written _ _ _ _ _ v hv, stdIdOperand_of_le _ v hle,
      BitVec.setWidth_eq_extractLsb' (show 11 ≤ 32 by decide)]
    rfl
  case outOfRange =>
    intro v hv hlt
    rw [exec_newStd, unary_written _ _ _ _ _ v hv, stdIdOperand_of_lt _ v hlt]
    rfl
  case unwritten => exact unary_unwritten

/-- Settles O26. The checked operand is the word's bits 28..0. -/
theorem newExtPlacesIdAtBit0 : Obligations.NewExtPlacesIdAtBit0 := by
  unfold Obligations.NewExtPlacesIdAtBit0
  intro s rd rs1
  refine ⟨?inRange, ?outOfRange, ?unwritten⟩
  case inRange =>
    intro v hv hle
    rw [exec_newExt, unary_written _ _ _ _ _ v hv, extIdOperand_of_le _ v hle,
      BitVec.setWidth_eq_extractLsb' (show 29 ≤ 32 by decide)]
    rfl
  case outOfRange =>
    intro v hv hlt
    rw [exec_newExt, unary_written _ _ _ _ _ v hv, extIdOperand_of_lt _ v hlt]
    rfl
  case unwritten => exact unary_unwritten

/-- A word with bits 31..29 clear is its raw bits, zero-extended. -/
theorem setWidth_narrow_of_high_zero {v : Word} (h : v.extractLsb' 29 3 = 0) : (v.setWidth 29).setWidth 32 = v := by
  have hhigh : v.toNat >>> 29 % 2 ^ 3 = 0 := congrArg BitVec.toNat h
  apply BitVec.eq_of_toNat_eq
  simp only [BitVec.toNat_setWidth]
  omega

/-- Settles O27. The accepted operands are those of `setWidth_narrow_of_high_zero`, `frameKindOperand_of_tag` and
`idTypeOperand_of_tag`; the checks run in operand order, so the first that refuses gives the cause. -/
theorem fromRegCombinesRawBitsAndFlags : Obligations.FromRegCombinesRawBitsAndFlags := by
  unfold Obligations.FromRegCombinesRawBitsAndFlags
  intro s rd rs1 rs2 rs3 faulty
  refine ⟨fun raw k t hraw hk ht => ?written, fun h => ternary_unwritten_rs1 h,
    fun raw h1 h2 => ternary_unwritten_rs2 h1 h2, fun raw k h1 h2 h3 => ternary_unwritten_rs3 h1 h2 h3⟩
  rw [exec_fromReg, ternary_written _ _ _ _ _ _ _ raw k t hraw hk ht]
  refine ⟨?accepted, ?badRaw, ?badKind, ?badType⟩
  case accepted =>
    intro hzero hkTag htTag
    obtain ⟨kind, hkind, hkEnc⟩ := frameKindOperand_of_tag .rs2 hkTag
    obtain ⟨type, htype, htEnc⟩ := idTypeOperand_of_tag .rs3 htTag
    have hbits : encReg (fromReg ⟨raw.setWidth 29⟩ kind type) = raw ||| (k <<< 29) ||| (t <<< 30) := by
      rw [encReg, fromReg, setWidth_narrow_of_high_zero hzero, placeRtr, placeXtd, hkEnc, htEnc]
      rfl
    rw [rawIdOperand_of_zero _ raw hzero, hkind, htype, ← hbits]
    rfl
  case badRaw =>
    intro hne
    rw [rawIdOperand_of_ne _ raw hne]
    rfl
  case badKind =>
    intro hzero h0 h1
    rw [rawIdOperand_of_zero _ raw hzero, frameKindOperand_of_ne _ h0 h1]
    rfl
  case badType =>
    intro hzero hkTag h0 h1
    obtain ⟨kind, hkind, -⟩ := frameKindOperand_of_tag .rs2 hkTag
    rw [rawIdOperand_of_zero _ raw hzero, hkind, idTypeOperand_of_ne _ h0 h1]
    rfl

/-- Settles O28. The operand check answers the Boolean of the word 1 or 0, and refuses every other word. -/
theorem withRtrSetsOrClearsBit29 : Obligations.WithRtrSetsOrClearsBit29 := by
  unfold Obligations.WithRtrSetsOrClearsBit29
  intro s rd rs1 rs2
  refine ⟨?sets, ?clears, ?badTag, fun h => binary_unwritten_rs1 h, fun r h1 h2 => binary_unwritten_rs2 h1 h2⟩
  case sets =>
    intro r hr hb
    rw [exec_withRtr, binary_written _ _ _ _ _ _ r 1 hr hb]
    rfl
  case clears =>
    intro r hr hb
    rw [exec_withRtr, binary_written _ _ _ _ _ _ r 0 hr hb]
    rfl
  case badTag =>
    intro r b hr hb h0 h1
    rw [exec_withRtr, binary_written _ _ _ _ _ _ r b hr hb, boolOperand_of_ne _ h0 h1]
    rfl

end Sys2Proof.Machine
end

section
/-! The bits of a constructed register value (spec/40_construct.md R70 to R76), and the laws that follow bit by bit: the
update laws (R77) and the reconstruction laws (R78). -/

namespace Sys2Proof.Machine

theorem reg_eq_of_getLsbD {a b : Reg} (h : ∀ i < 32, a.bits.getLsbD i = b.bits.getLsbD i) : a = b := by
  cases a
  cases b
  exact congrArg Reg.mk (BitVec.eq_of_getLsbD_eq h)

theorem rtrMask_eq_twoPow : Config.rtrMask = BitVec.twoPow 32 29 := rfl

theorem xtdMask_eq_twoPow : Config.xtdMask = BitVec.twoPow 32 30 := rfl

/-- WITH_RTR sets bit 29 and keeps every other bit. -/
theorem withRtr_getLsbD (r : Reg) (b : Bool) (i : Nat) :
    (withRtr r b).bits.getLsbD i = if i = 29 then b else r.bits.getLsbD i := by
  by_cases h29 : i = 29
  · subst h29
    cases b <;> simp [withRtr, Config.rtrMask]
  · cases b with
    | true => simp [withRtr, rtrMask_eq_twoPow, h29, Ne.symm h29]
    | false => simpa [withRtr, rtrMask_eq_twoPow, h29, Ne.symm h29] using BitVec.lt_of_getLsbD

theorem withRtr_getLsbD_of_ne {r : Reg} {b : Bool} {i : Nat} (h : i ≠ 29) :
    (withRtr r b).bits.getLsbD i = r.bits.getLsbD i := by
  rw [withRtr_getLsbD, if_neg h]

theorem toId_withRtr (r : Reg) (b : Bool) : toId (withRtr r b) = toId r :=
  toId_congr (withRtr_getLsbD_of_ne (by decide))
    (extractLsb'_eq_iff_getLsbD.mpr fun _ _ hi => withRtr_getLsbD_of_ne (by omega))
    fun _ => extractLsb'_eq_iff_getLsbD.mpr fun _ _ hi => withRtr_getLsbD_of_ne (by omega)

theorem xtd_withRtr (r : Reg) (b : Bool) : xtd (withRtr r b) = xtd r := by
  rw [xtd_eq_getLsbD, xtd_eq_getLsbD, withRtr_getLsbD_of_ne (by decide)]

theorem rtr_withRtr (r : Reg) (b : Bool) : rtr (withRtr r b) = b := by
  rw [rtr_eq_getLsbD, withRtr_getLsbD, if_pos rfl]

theorem withRtr_withRtr (r : Reg) (b c : Bool) : withRtr (withRtr r b) c = withRtr r c := by
  refine reg_eq_of_getLsbD fun i _ => ?_
  rw [withRtr_getLsbD, withRtr_getLsbD, withRtr_getLsbD]
  split <;> rfl

theorem withRtr_rtr (r : Reg) : withRtr r (rtr r) = r := by
  refine reg_eq_of_getLsbD fun i _ => ?_
  rw [withRtr_getLsbD, rtr_eq_getLsbD]
  split
  · next h => rw [h]
  · rfl

/-- Settles O35, one law at a time. -/
theorem withRtrKeepsIdentifier : Obligations.WithRtrKeepsIdentifier := by
  unfold Obligations.WithRtrKeepsIdentifier
  exact fun r b c => ⟨toId_withRtr r b, xtd_withRtr r b, rtr_withRtr r b, withRtr_withRtr r b c, withRtr_rtr r⟩

theorem placeRtr_getLsbD (k : FrameKind) (i : Nat) :
    (placeRtr k).getLsbD i = (decide (i = 29) && decide (k = .remote)) := by
  cases k with
  | data => simp [placeRtr, encFrameKind]
  | remote =>
    rw [show placeRtr .remote = BitVec.twoPow 32 29 from rfl, BitVec.getLsbD_twoPow]
    simp [eq_comm]

theorem placeXtd_getLsbD (t : IdType) (i : Nat) :
    (placeXtd t).getLsbD i = (decide (i = 30) && decide (t = .extended)) := by
  cases t with
  | standard => simp [placeXtd, encIdType]
  | extended =>
    rw [show placeXtd .extended = BitVec.twoPow 32 30 from rfl, BitVec.getLsbD_twoPow]
    simp [eq_comm]

/-- FROM_REG keeps the raw bits below bit 29, and places the kind at bit 29 and the type at bit 30. -/
theorem fromReg_getLsbD (raw : RawId) (k : FrameKind) (t : IdType) {i : Nat} (hi : i < 32) :
    (fromReg raw k t).bits.getLsbD i = (raw.bits.getLsbD i || (decide (i = 29) && decide (k = .remote)) ||
      (decide (i = 30) && decide (t = .extended))) := by
  simp only [fromReg, BitVec.getLsbD_or, BitVec.getLsbD_setWidth, hi, decide_true, Bool.true_and, placeRtr_getLsbD,
    placeXtd_getLsbD]

/-- NEW_STD is FROM_REG of the identifier in register position, as a standard data frame. -/
theorem newStd_eq_fromReg (s : StdId) : newStd s = fromReg ⟨s.bits.setWidth 29 <<< 18⟩ .data .standard := by
  refine reg_eq_of_getLsbD fun i hi => ?_
  rw [fromReg_getLsbD _ _ _ hi]
  by_cases hlow : i < 29
  · simp [newStd, Config.stdShift, hi, hlow]
  · simp [newStd, Config.stdShift, hi, hlow, BitVec.getLsbD_of_ge s.bits (i - 18) (by omega)]

/-- NEW_EXT is FROM_REG of the identifier, as an extended data frame. -/
theorem newExt_eq_fromReg (e : ExtId) : newExt e = fromReg ⟨e.bits⟩ .data .extended := by
  refine reg_eq_of_getLsbD fun i hi => ?_
  rw [fromReg_getLsbD _ _ _ hi]
  simp [newExt, xtdMask_eq_twoPow, hi]

/-- The RTR flag of a FROM_REG result may be set afterwards: raw bits do not reach bit 29. -/
theorem withRtr_fromReg (raw : RawId) (k k' : FrameKind) (t : IdType) :
    withRtr (fromReg raw k t) (decide (k' = .remote)) = fromReg raw k' t := by
  refine reg_eq_of_getLsbD fun i hi => ?_
  rw [withRtr_getLsbD, fromReg_getLsbD _ _ _ hi, fromReg_getLsbD _ _ _ hi]
  by_cases h : i = 29
  · simp [h]
  · simp [h]

theorem decide_frameKind_eq_remote (r : Reg) : decide (frameKind r = .remote) = r.bits.getLsbD 29 := by
  rw [frameKind, rtr_eq_getLsbD]
  cases r.bits.getLsbD 29 <;> rfl

theorem decide_idType_eq_extended (r : Reg) : decide (idType r = .extended) = r.bits.getLsbD 30 := by
  rw [idType, xtd_eq_getLsbD]
  cases r.bits.getLsbD 30 <;> rfl

/-- A register value with bit 31 clear is what FROM_REG makes of its raw bits and its tags. -/
theorem fromReg_of_reads {r : Reg} (h31 : r.bits.getLsbD 31 = false) :
    fromReg (rawId r) (frameKind r) (idType r) = r := by
  refine reg_eq_of_getLsbD fun i hi => ?_
  rw [fromReg_getLsbD _ _ _ hi, decide_frameKind_eq_remote, decide_idType_eq_extended, rawId_eq_extract,
    BitVec.getLsbD_extractLsb', Nat.zero_add]
  obtain hlow | rfl | rfl | rfl : i < 29 ∨ i = 29 ∨ i = 30 ∨ i = 31 := by omega
  · simp [hlow, show i ≠ 29 by omega, show i ≠ 30 by omega]
  · simp
  · simp
  · simpa using h31.symm

/-- Settles O36: a constructor is FROM_REG of a data frame, and `withRtr_fromReg` makes it a frame of kind k. -/
theorem fromRegReconstructs : Obligations.FromRegReconstructs := by
  unfold Obligations.FromRegReconstructs
  refine ⟨fun s k => ?standard, fun e k => ?extended, fun r h31 => fromReg_of_reads h31⟩
  case standard => rw [newStd_eq_fromReg, withRtr_fromReg]
  case extended => rw [newExt_eq_fromReg, withRtr_fromReg]

end Sys2Proof.Machine
end

section
/-! The slot words of the query results (spec/10_state.md R27; spec/41_query.md R90 to R97), as operations on the raw word,
and how the queries agree with each other (R98). -/

namespace Sys2Proof.Machine

/-- The slot word of a flag is its bit, zero-extended. -/
theorem encBool_getLsbD (w : Word) (i : Nat) : encBool (w.getLsbD i) = (w.extractLsb' i 1).setWidth 32 := by
  have hbit : ∀ b : BitVec 1, encBool (b == 1#1) = b.setWidth 32 := by decide
  rw [BitVec.getLsbD_eq_extractLsb', hbit]

theorem encBool_not (b : Bool) : encBool (!b) = 1#32 - encBool b := by cases b <;> rfl

theorem encBool_eq_ite (b : Bool) : encBool b = if b then 1#32 else 0#32 := by cases b <;> rfl

/-- Narrowing a word masked to its low bits and widening it again loses nothing. -/
theorem setWidth_narrow_of_mask_lt {n len : Nat} {w m : BitVec n} (h : m < BitVec.twoPow n len) :
    ((w &&& m).setWidth len).setWidth n = w &&& m :=
  BitVec.setWidth_setWidth_eq_self (Nat.lt_of_le_of_lt Nat.and_le_right h)

section Reads
variable (r : Reg)

theorem isExt_eq_getLsbD : isExt r = r.bits.getLsbD 30 := xtd_eq_getLsbD r

theorem isRtr_eq_getLsbD : isRtr r = r.bits.getLsbD 29 := rtr_eq_getLsbD r

theorem isStd_eq_not_isExt : isStd r = !isExt r := rfl

theorem encIdType_idType : encIdType (idType r) = encBool (isExt r) := by
  rw [idType, isExt]
  cases xtd r <;> rfl

theorem encFrameKind_frameKind : encFrameKind (frameKind r) = encBool (isRtr r) := by
  rw [frameKind, isRtr]
  cases rtr r <;> rfl

theorem toId_type : (toId r).type = idType r := by
  rw [toId, idType]
  cases xtd r <;> rfl

theorem encRawId_rawId : encRawId (rawId r) = r.bits &&& Config.extMask := setWidth_narrow_of_mask_lt (by decide)

variable {r}

theorem toId_of_xtd (h : xtd r = true) : toId r = .extended ⟨(rawId r).bits⟩ := if_pos h

theorem encId_toId_of_extended (h : xtd r = true) :
    encId (toId r) = 0x80000000#32 ||| (r.bits &&& Config.extMask) := by
  rw [toId_of_xtd h, ← encRawId_rawId]
  rfl

theorem encId_toId_of_standard (h : xtd r = false) :
    encId (toId r) = (r.bits &&& Config.stdMask) >>> Config.stdShift := by
  rw [toId, if_neg (by simp [h]), BitVec.ushiftRight_and_distrib, encId, encStdId]
  exact setWidth_narrow_of_mask_lt (by decide)

end Reads

/-- Settles O38, one law at a time. -/
theorem queriesAgreeWithEachOther : Obligations.QueriesAgreeWithEachOther := by
  unfold Obligations.QueriesAgreeWithEachOther
  exact fun r => ⟨isStd_eq_not_isExt r, encIdType_idType r, encFrameKind_frameKind r, encRawId_rawId r, toId_of_xtd⟩

end Sys2Proof.Machine
end

section
/-! The query commands (spec/41_query.md R90 to R97): each is total on the word it reads, so it completes with its query's
slot word or faults on an unwritten source. -/

namespace Sys2Proof.Machine

section Commands
variable (s : State) (rd rs1 : SlotIdx)

theorem exec_toId : exec (.toId rd rs1) s = unary s (encode (.toId rd rs1)) rd rs1 fun v =>
    .ok (encId (toId (regOperand v))) := rfl

theorem exec_isExt : exec (.isExt rd rs1) s = unary s (encode (.isExt rd rs1)) rd rs1 fun v =>
    .ok (encBool (isExt (regOperand v))) := rfl

theorem exec_isStd : exec (.isStd rd rs1) s = unary s (encode (.isStd rd rs1)) rd rs1 fun v =>
    .ok (encBool (isStd (regOperand v))) := rfl

theorem exec_isRtr : exec (.isRtr rd rs1) s = unary s (encode (.isRtr rd rs1)) rd rs1 fun v =>
    .ok (encBool (isRtr (regOperand v))) := rfl

theorem exec_rawId : exec (.rawId rd rs1) s = unary s (encode (.rawId rd rs1)) rd rs1 fun v =>
    .ok (encRawId (rawId (regOperand v))) := rfl

theorem exec_idType : exec (.idType rd rs1) s = unary s (encode (.idType rd rs1)) rd rs1 fun v =>
    .ok (encIdType (idType (regOperand v))) := rfl

theorem exec_frameKind : exec (.frameKind rd rs1) s = unary s (encode (.frameKind rd rs1)) rd rs1 fun v =>
    .ok (encFrameKind (frameKind (regOperand v))) := rfl

end Commands

/-- A command whose rule refuses no word completes with the rule's result. -/
theorem unary_total_written {s : State} {w : CmdWord} {rd rs1 : SlotIdx} {f : Word → Word} {r v : Word}
    (hr : s.x[rs1] = .written r) (hv : f r = v) :
    unary s w rd rs1 (fun a => .ok (f a)) = .next (complete s rd v) := by
  rw [unary_written _ _ _ _ _ r hr, hv, finish_ok]

/-- Settles O29. Bit 30 selects the field, and the Id word of the field is the masked word. -/
theorem toIdReadsTheActiveField : Obligations.ToIdReadsTheActiveField := by
  unfold Obligations.ToIdReadsTheActiveField
  intro s rd rs1
  rw [exec_toId]
  refine ⟨?extended, ?standard, fun h => unary_unwritten h⟩
  case extended =>
    intro r hr h30
    have hxtd : xtd (regOperand r) = true := (xtd_eq_getLsbD _).trans h30
    exact unary_total_written hr (encId_toId_of_extended hxtd)
  case standard =>
    intro r hr h30
    have hxtd : xtd (regOperand r) = false := (xtd_eq_getLsbD _).trans h30
    exact unary_total_written hr (encId_toId_of_standard hxtd)

/-- Settles O30. Each answer is the slot word of one bit, `encBool_getLsbD`. -/
theorem flagQueriesReadOneBit : Obligations.FlagQueriesReadOneBit := by
  unfold Obligations.FlagQueriesReadOneBit
  intro s rd rs1
  rw [exec_isExt, exec_isStd, exec_isRtr]
  refine ⟨fun r hr => ⟨unary_total_written hr ?isExt, unary_total_written hr ?isStd, unary_total_written hr ?isRtr⟩,
    fun h => ⟨unary_unwritten h, unary_unwritten h, unary_unwritten h⟩⟩
  case isExt => rw [isExt_eq_getLsbD, encBool_getLsbD, regOperand]
  case isStd => rw [isStd_eq_not_isExt, encBool_not, isExt_eq_getLsbD, encBool_getLsbD, regOperand]
  case isRtr => rw [isRtr_eq_getLsbD, encBool_getLsbD, regOperand]

/-- Settles O31: the slot word is `encRawId_rawId`, whatever bit 30 is. -/
theorem rawIdMasksTo29Bits : Obligations.RawIdMasksTo29Bits := by
  unfold Obligations.RawIdMasksTo29Bits
  intro s rd rs1
  rw [exec_rawId]
  exact ⟨fun r hr => unary_total_written hr (encRawId_rawId _), fun h => unary_unwritten h⟩

/-- Settles O32. The slot word of each tag is that of its flag. -/
theorem typeTagsReadTheirFlag : Obligations.TypeTagsReadTheirFlag := by
  unfold Obligations.TypeTagsReadTheirFlag
  refine ⟨toId_type, fun s rd rs1 => ?commands⟩
  rw [exec_idType, exec_frameKind]
  refine ⟨fun r hr => ⟨unary_total_written hr ?idType, unary_total_written hr ?frameKind⟩,
    fun h => ⟨unary_unwritten h, unary_unwritten h⟩⟩
  case idType => rw [encIdType_idType, encBool_eq_ite, isExt_eq_getLsbD, regOperand]
  case frameKind => rw [encFrameKind_frameKind, encBool_eq_ite, isRtr_eq_getLsbD, regOperand]

end Sys2Proof.Machine
end

section
/-! The extraction laws (spec/41_query.md R91): FROM_REG leaves the raw bits as they are below bit 29, so `to_id` reads
from its result the field of the raw bits that the type selects. -/

namespace Sys2Proof.Machine

section FromReg
variable (raw : RawId) (k : FrameKind) (t : IdType)

theorem fromReg_bit30 : (fromReg raw k t).bits.getLsbD 30 = decide (t = .extended) := by
  rw [fromReg_getLsbD _ _ _ (by decide), BitVec.getLsbD_of_ge raw.bits 30 (by decide)]
  simp

/-- Every field below bit 29 is the field of the raw bits. -/
theorem fromReg_extract {start len : Nat} (h : start + len ≤ 29) :
    (fromReg raw k t).bits.extractLsb' start len = raw.bits.extractLsb' start len := by
  apply BitVec.eq_of_getLsbD_eq
  intro i hi
  rw [BitVec.getLsbD_extractLsb', BitVec.getLsbD_extractLsb', fromReg_getLsbD _ _ _ (by omega)]
  simp [show start + i ≠ 29 by omega, show start + i ≠ 30 by omega]

theorem toId_fromReg_standard : toId (fromReg raw k .standard) = .standard ⟨raw.bits.extractLsb' 18 11⟩ := by
  rw [toId_of_standard _ (fromReg_bit30 ..), fromReg_extract _ _ _ (by decide)]

theorem toId_fromReg_extended : toId (fromReg raw k .extended) = .extended ⟨raw.bits⟩ := by
  rw [toId_of_extended _ (fromReg_bit30 ..), fromReg_extract _ _ _ (by decide), BitVec.extractLsb'_eq_self]

end FromReg

/-- An identifier in register position is found again at bits 28..18. -/
theorem extract_registerPosition (b : BitVec 11) : (b.setWidth 29 <<< 18).extractLsb' 18 11 = b := by
  apply BitVec.eq_of_getLsbD_eq
  intro i hi
  simp [hi, show 18 + i < 29 by omega]

theorem toId_fromReg_registerPosition (s : StdId) (k : FrameKind) :
    toId (fromReg ⟨s.bits.setWidth 29 <<< 18⟩ k .standard) = .standard s := by
  rw [toId_fromReg_standard, extract_registerPosition]

/-- Settles O37: the constructors are FROM_REG of the identifier, so every law is one of FROM_REG. -/
theorem toIdRecoversTheIdentifier : Obligations.ToIdRecoversTheIdentifier := by
  unfold Obligations.ToIdRecoversTheIdentifier
  refine ⟨fun s => ?newStd, fun e => ?newExt, toId_fromReg_registerPosition, fun e k => toId_fromReg_extended ⟨e.bits⟩ k,
    toId_fromReg_standard⟩
  case newStd => rw [newStd_eq_fromReg, toId_fromReg_registerPosition]
  case newExt => rw [newExt_eq_fromReg, toId_fromReg_extended]

end Sys2Proof.Machine
end

section
/-! ID.CMP (spec/42_priority.md R110): the command writes the Ordering word of `cmp` and refuses no word. -/

namespace Sys2Proof.Machine

theorem exec_cmp (s : State) (rd rs1 rs2 : SlotIdx) : exec (.cmp rd rs1 rs2) s =
    binary s (encode (.cmp rd rs1 rs2)) rd rs1 rs2 fun a b =>
      .ok (encOrdering (cmp (regOperand a) (regOperand b))) := rfl

/-- Settles O33. The rule of ID.CMP has no check, so only an unwritten source faults. -/
theorem cmpWritesOrderingWord : Obligations.CmpWritesOrderingWord := by
  unfold Obligations.CmpWritesOrderingWord
  intro s rd rs1 rs2
  rw [exec_cmp]
  refine ⟨fun a b ha hb => ?written, fun h => binary_unwritten_rs1 h, fun a h1 h2 => binary_unwritten_rs2 h1 h2⟩
  rw [binary_written _ _ _ _ _ _ a b ha hb, finish_ok]
  rfl

end Sys2Proof.Machine
end

section
/-! `cmp` as a comparison of identifiers and then of frame kinds (spec/42_priority.md R111, R113, R116): only identical
identifiers tie, so the frame kind is asked for those alone. -/

namespace Sys2Proof.Machine

theorem andThen_assoc (o p q : Ordering) : andThen (andThen o p) q = andThen o (andThen p q) := by
  cases o <;> rfl

theorem andThen_of_ne_eq {o p : Ordering} (h : o ≠ .eq) : andThen o p = o := by
  cases o with
  | eq => exact absurd rfl h
  | lt => rfl
  | gt => rfl

theorem reverse_eq_eq {o : Ordering} : reverse o = .eq ↔ o = .eq := by cases o <;> decide

theorem cmpu_eq_eq {n : Nat} {p q : BitVec n} : cmpu p q = .eq ↔ p = q :=
  Nat.compare_eq_eq.trans BitVec.toNat_inj

/-- The comparison of two identifiers by R111, before any frame kind is asked: the smaller one is the greater, and
across types a tie of base IDs goes to the standard one. `cmp_eq_idOrder` ties it to `cmp`. -/
def idOrder : Id → Id → Ordering
  | .standard p, .standard q => reverse (cmpu p.bits q.bits)
  | .extended p, .extended q => reverse (cmpu p.bits q.bits)
  | .standard p, .extended q => andThen (reverse (cmpu p.bits (baseId q).bits)) .gt
  | .extended p, .standard q => andThen (reverse (cmpu (baseId p).bits q.bits)) .lt

theorem idOrder_eq_eq {i j : Id} : idOrder i j = .eq ↔ i = j := by
  cases i with
  | standard p =>
    cases j with
    | standard q => rw [idOrder, reverse_eq_eq, cmpu_eq_eq, Id.standard.injEq, StdId.mk.injEq]
    | extended q => simp [idOrder, andThen_eq_eq]
  | extended p =>
    cases j with
    | standard q => simp [idOrder, andThen_eq_eq]
    | extended q => rw [idOrder, reverse_eq_eq, cmpu_eq_eq, Id.extended.injEq, ExtId.mk.injEq]

section Cmp
variable {a b : Reg}

theorem cmp_eq_idOrder : cmp a b = andThen (idOrder (toId a) (toId b)) (rtrOrder a b) := by
  rw [cmp]
  cases toId a with
  | standard p =>
    cases toId b with
    | standard q => rfl
    | extended q => rw [idOrder, andThen_assoc]; rfl
  | extended p =>
    cases toId b with
    | standard q => rw [idOrder, andThen_assoc]; rfl
    | extended q => rfl

theorem cmp_of_toId_ne (h : toId a ≠ toId b) : cmp a b = idOrder (toId a) (toId b) := by
  rw [cmp_eq_idOrder, andThen_of_ne_eq (mt idOrder_eq_eq.mp h)]

theorem rtrOrder_eq_eq : rtrOrder a b = .eq ↔ a.bits.getLsbD 29 = b.bits.getLsbD 29 := by
  rw [rtrOrder, reverse_eq_eq, cmpu_eq_eq, rtrBit_eq_ofBool, rtrBit_eq_ofBool, BitVec.ofBool_eq_iff_eq]

theorem cmp_eq_eq : cmp a b = .eq ↔ toId a = toId b ∧ a.bits.getLsbD 29 = b.bits.getLsbD 29 := by
  rw [cmp_eq_idOrder, andThen_eq_eq, idOrder_eq_eq, rtrOrder_eq_eq]

theorem cmp_withRtr_of_toId_ne (k l : Bool) (h : toId a ≠ toId b) :
    cmp (withRtr a k) (withRtr b l) = cmp a b := by
  have hset : toId (withRtr a k) ≠ toId (withRtr b l) := by rwa [toId_withRtr, toId_withRtr]
  rw [cmp_of_toId_ne hset, cmp_of_toId_ne h, toId_withRtr, toId_withRtr]

theorem idType_eq_of_toId_eq (h : toId a = toId b) : idType a = idType b := by
  rw [← toId_type, ← toId_type, h]

end Cmp

/-- Settles O45 by `cmp_eq_eq`, where equal identifiers are of one type; the two words that compare Equal differ in bit
0, a don't-care bit of a standard value. -/
theorem cmpEqualMeansSameFrameIdentity : Obligations.CmpEqualMeansSameFrameIdentity := by
  unfold Obligations.CmpEqualMeansSameFrameIdentity
  refine ⟨fun a b => cmp_eq_eq.trans ⟨fun ⟨hid, hrtr⟩ => ⟨idType_eq_of_toId_eq hid, hid, hrtr⟩, And.right⟩, ?coarser⟩
  case coarser => exact ⟨⟨0x04000000#32⟩, ⟨0x04000001#32⟩, by decide, by decide⟩

end Sys2Proof.Machine
end

section
/-! `cmp` on the bits of the words (spec/42_priority.md R111, R113): which field of each word is compared, and who wins
when the fields are equal. -/

namespace Sys2Proof.Machine

section SmallerWins
variable {n : Nat} {p q : BitVec n} {o : Ordering}

theorem smallerWins_of_lt (h : p < q) : andThen (reverse (cmpu p q)) o = .gt := by
  rw [cmpu_of_lt h]
  rfl

theorem smallerWins_of_gt (h : q < p) : andThen (reverse (cmpu p q)) o = .lt := by
  rw [cmpu_of_gt h]
  rfl

theorem smallerWins_of_eq (h : p = q) : andThen (reverse (cmpu p q)) o = o := by
  rw [h, cmpu_self]
  rfl

theorem smallerWins_of_le (h : p ≤ q) : andThen (reverse (cmpu p q)) .gt = .gt := by
  obtain hlt | heq := Std.le_iff_lt_or_eq.mp h
  · exact smallerWins_of_lt hlt
  · exact smallerWins_of_eq heq

theorem smallerWins_of_ge (h : q ≤ p) : andThen (reverse (cmpu p q)) .lt = .lt := by
  obtain hlt | heq := Std.le_iff_lt_or_eq.mp h
  · exact smallerWins_of_gt hlt
  · exact smallerWins_of_eq heq.symm

end SmallerWins

section CmpByType
variable {a b : Reg}

theorem cmp_standard (ha : a.bits.getLsbD 30 = false) (hb : b.bits.getLsbD 30 = false) : cmp a b =
    andThen (reverse (cmpu (a.bits.extractLsb' 18 11) (b.bits.extractLsb' 18 11))) (rtrOrder a b) := by
  rw [cmp_eq_idOrder, toId_of_standard a ha, toId_of_standard b hb, idOrder]

theorem cmp_extended (ha : a.bits.getLsbD 30 = true) (hb : b.bits.getLsbD 30 = true) : cmp a b =
    andThen (reverse (cmpu (a.bits.extractLsb' 0 29) (b.bits.extractLsb' 0 29))) (rtrOrder a b) := by
  rw [cmp_eq_idOrder, toId_of_extended a ha, toId_of_extended b hb, idOrder]

theorem cmp_standard_extended (ha : a.bits.getLsbD 30 = false) (hb : b.bits.getLsbD 30 = true) : cmp a b =
    andThen (reverse (cmpu (a.bits.extractLsb' 18 11) (b.bits.extractLsb' 18 11))) .gt := by
  rw [cmp_eq_idOrder, toId_of_standard a ha, toId_of_extended b hb, idOrder, baseId_of_extract, andThen_assoc]
  rfl

theorem cmp_extended_standard (ha : a.bits.getLsbD 30 = true) (hb : b.bits.getLsbD 30 = false) : cmp a b =
    andThen (reverse (cmpu (a.bits.extractLsb' 18 11) (b.bits.extractLsb' 18 11))) .lt := by
  rw [cmp_eq_idOrder, toId_of_extended a ha, toId_of_standard b hb, idOrder, baseId_of_extract, andThen_assoc]
  rfl

end CmpByType

/-- Settles O41: in each of the four pairs of types the smaller field wins, and the frame kind or the type breaks a
tie. -/
theorem cmpFollowsArbitration : Obligations.CmpFollowsArbitration := by
  unfold Obligations.CmpFollowsArbitration
  intro a b
  refine ⟨fun ha hb => ?standard, fun ha hb => ?extended, fun ha hb => ?standardExtended, fun ha hb => ?extendedStandard⟩
  case standard =>
    rw [cmp_standard ha hb, ← rtrOrder_eq]
    exact ⟨smallerWins_of_lt, smallerWins_of_gt, smallerWins_of_eq⟩
  case extended =>
    rw [cmp_extended ha hb, ← rtrOrder_eq]
    exact ⟨smallerWins_of_lt, smallerWins_of_gt, smallerWins_of_eq⟩
  case standardExtended =>
    rw [cmp_standard_extended ha hb]
    exact ⟨smallerWins_of_le, smallerWins_of_gt⟩
  case extendedStandard =>
    rw [cmp_extended_standard ha hb]
    exact ⟨smallerWins_of_lt, smallerWins_of_ge⟩

/-- Settles O42. Where the types differ the identifiers do, so both RTR clauses are `cmp_withRtr_of_toId_ne`; at equal
base ID the type decides. -/
theorem crossTypeNeverReadsRtr : Obligations.CrossTypeNeverReadsRtr := by
  unfold Obligations.CrossTypeNeverReadsRtr
  refine ⟨fun a b k l htype => cmp_withRtr_of_toId_ne k l (mt idType_eq_of_toId_eq htype), ?baseTie,
    fun a b k l _ hid => cmp_withRtr_of_toId_ne k l hid⟩
  case baseTie =>
    intro a b ha hb hbase
    have ha30 : a.bits.getLsbD 30 = false := by rw [← decide_idType_eq_extended, ha]; rfl
    have hb30 : b.bits.getLsbD 30 = true := by rw [← decide_idType_eq_extended, hb]; rfl
    rw [cmp_standard_extended ha30 hb30, cmp_extended_standard hb30 ha30]
    exact ⟨smallerWins_of_eq hbase, smallerWins_of_eq hbase.symm⟩

end Sys2Proof.Machine
end

section
/-! The key form of `cmp` (spec/42_priority.md R114), and the order laws that follow from it (R115): `lexCompare` is a
comparator of the library, and `cmp` compares the keys by it the other way round. -/

namespace Sys2Proof.Machine

theorem reverse_eq_swap (o : Ordering) : reverse o = o.swap := by cases o <;> rfl

theorem andThen_eq_then (o p : Ordering) : andThen o p = o.then p := by cases o <;> rfl

theorem baseId_toNat (e : ExtId) : (baseId e).bits.toNat = e.bits.toNat / 2 ^ 18 := by
  have hbound : e.bits.toNat < 2 ^ 29 := e.bits.isLt
  simp only [baseId, Config.baseShift, BitVec.extractLsb'_toNat, Nat.shiftRight_eq_div_pow]
  omega

/-- The base ID is monotone in the identifier, so comparing base IDs first changes nothing. -/
theorem andThen_cmpu_baseId (p q : ExtId) :
    andThen (cmpu (baseId p).bits (baseId q).bits) (cmpu p.bits q.bits) = cmpu p.bits q.bits := by
  rw [cmpu, cmpu, baseId_toNat, baseId_toNat]
  cases hbase : compare (p.bits.toNat / 2 ^ 18) (q.bits.toNat / 2 ^ 18) with
  | lt =>
    have hlt := Nat.compare_eq_lt.mp hbase
    exact (Nat.compare_eq_lt.mpr (by omega)).symm
  | eq => rfl
  | gt =>
    have hgt := Nat.compare_eq_gt.mp hbase
    exact (Nat.compare_eq_gt.mpr (by omega)).symm

theorem cmp_eq_reverse_lexCompare (a b : Reg) : cmp a b = reverse (lexCompare (priorityKey a) (priorityKey b)) := by
  rw [cmp_eq_idOrder, lexCompare, reverse_andThen, reverse_andThen, reverse_andThen, priorityKey, priorityKey]
  cases toId a with
  | standard p =>
    cases toId b with
    | standard q => rfl
    | extended q => exact andThen_assoc ..
  | extended p =>
    cases toId b with
    | standard q => exact andThen_assoc ..
    | extended q =>
      rw [idOrder, ← andThen_cmpu_baseId p q, reverse_andThen]
      exact andThen_assoc ..

/-- Settles O43: `cmp_eq_reverse_lexCompare`, by the types of the two identifiers. -/
theorem cmpIsReversedKeyOrder : Obligations.CmpIsReversedKeyOrder := cmp_eq_reverse_lexCompare

theorem lexCompare_eq_compareLex : lexCompare = compareLex (compareOn (·.1)) (compareLex (compareOn (·.2.1))
    (compareLex (compareOn (·.2.2.1)) (compareOn (·.2.2.2)))) := by
  funext a b
  simp only [lexCompare, andThen_eq_then]
  rfl

theorem lexCompare_transCmp : Std.TransCmp lexCompare := by
  rw [lexCompare_eq_compareLex]
  infer_instance

theorem cmp_eq_lexCompare (a b : Reg) : cmp a b = lexCompare (priorityKey b) (priorityKey a) := by
  have := lexCompare_transCmp
  rw [cmp_eq_reverse_lexCompare, reverse_eq_swap, ← Std.OrientedCmp.eq_swap]

theorem cmp_transCmp : Std.TransCmp cmp := by
  have := lexCompare_transCmp
  refine { eq_swap := ?swap, isLE_trans := ?trans }
  case swap =>
    intro a b
    rw [cmp_eq_lexCompare, cmp_eq_lexCompare, ← Std.OrientedCmp.eq_swap]
  case trans =>
    intro a b c hab hbc
    rw [cmp_eq_lexCompare] at hab hbc ⊢
    exact Std.TransCmp.isLE_trans hbc hab

theorem cmp_swap (a b : Reg) : cmp b a = reverse (cmp a b) := by
  have := cmp_transCmp
  rw [reverse_eq_swap, ← Std.OrientedCmp.eq_swap]

/-- Settles O44: the laws of a comparator that `cmp_transCmp` says `cmp` is. -/
theorem cmpIsTotalPreorder : Obligations.CmpIsTotalPreorder := by
  unfold Obligations.CmpIsTotalPreorder
  have := cmp_transCmp
  exact ⟨fun _ => Std.ReflCmp.compare_self, cmp_swap, fun _ _ _ => Std.TransCmp.lt_trans,
    fun _ _ _ => Std.TransCmp.eq_trans, fun _ _ _ => Std.TransCmp.congr_left⟩

end Sys2Proof.Machine
end

section
/-! The winner among contenders (spec/42_priority.md R117), by the order laws of `cmp` (R115). -/

namespace Sys2Proof.Machine

theorem cmp_self (a : Reg) : cmp a a = .eq := cmp_eq_eq.mpr ⟨rfl, rfl⟩

section NotLess
variable {a b c : Reg}

theorem cmp_ne_lt_trans (hab : cmp a b ≠ .lt) (hbc : cmp b c ≠ .lt) : cmp a c ≠ .lt := by
  have := cmp_transCmp
  rw [Ne, Ordering.ne_lt_iff_isGE] at hab hbc ⊢
  exact Std.TransCmp.isGE_trans hab hbc

theorem cmp_ne_lt_of_lt (h : cmp a b = .lt) : cmp b a ≠ .lt := by
  rw [cmp_swap, h]
  nofun

theorem cmp_eq_of_ne_lt (hab : cmp a b ≠ .lt) (hba : cmp b a ≠ .lt) : cmp a b = .eq := by
  rw [cmp_swap] at hba
  cases h : cmp a b with
  | lt => exact absurd h hab
  | eq => rfl
  | gt => exact absurd (congrArg reverse h) hba

end NotLess

/-- The first contender wins unless it is Less than the winner among the others, who wins then. -/
theorem exists_isWinner_cons (r : Reg) (rs : List Reg) : ∃ w, IsWinner (r :: rs) w := by
  have hself (a : Reg) : cmp a a ≠ .lt := by rw [cmp_self]; nofun
  induction rs generalizing r with
  | nil => exact ⟨r, List.mem_cons_self, List.forall_mem_singleton.mpr (hself r)⟩
  | cons r' rs ih =>
    obtain ⟨w, hmem, hwins⟩ := ih r'
    by_cases hless : cmp r w = .lt
    · exact ⟨w, List.mem_cons_of_mem r hmem, List.forall_mem_cons.mpr ⟨cmp_ne_lt_of_lt hless, hwins⟩⟩
    · have hall (other : Reg) (ho : other ∈ r' :: rs) : cmp r other ≠ .lt := cmp_ne_lt_trans hless (hwins other ho)
      exact ⟨r, List.mem_cons_self, List.forall_mem_cons.mpr ⟨hself r, hall⟩⟩

/-- Settles O46: `exists_isWinner_cons`, and two winners are each not Less than the other. -/
theorem arbitrationHasOneWinner : Obligations.ArbitrationHasOneWinner := by
  unfold Obligations.ArbitrationHasOneWinner
  refine ⟨fun contenders hne => ?winner, fun contenders r r' ⟨hmem, hwins⟩ ⟨hmem', hwins'⟩ =>
    cmp_eq_of_ne_lt (hwins r' hmem') (hwins' r hmem)⟩
  obtain ⟨r, rs, rfl⟩ := List.exists_cons_of_ne_nil hne
  exact exists_isWinner_cons r rs

end Sys2Proof.Machine
end

section
/-! Which command a step runs (spec/43_host.md R130, R131). -/

namespace Sys2Proof.Machine

/-- Settles O7: the premises are `fetch_ok`'s. -/
theorem stepRunsDecodedCommand : Obligations.StepRunsDecodedCommand := by
  unfold Obligations.StepRunsDecodedCommand
  intro s w i hfault hw hdecode
  exact step_of_decode_ok s w i ((fetch_ok s w).mpr ⟨hfault, hw⟩) hdecode

theorem decodeTableWord_eq_some {nbits w : Nat} {i : Instr} :
    decodeTableWord nbits w = some i ↔ decode (tableWord nbits w) = .ok i := by
  unfold decodeTableWord
  cases decode (tableWord nbits w) with
  | ok j => simp
  | error e => simp

/-- Settles O8: placing a word clears the fault record and puts the word at pc, so the step runs what the word decodes
to. -/
theorem placedWordIsRunNext : Obligations.PlacedWordIsRunNext := by
  unfold Obligations.PlacedWordIsRunNext
  intro s nbits w i h
  exact ⟨stepRunsDecodedCommand _ _ i (placeCommand_fault ..) (placeCommand_at_pc ..) (decodeTableWord_eq_some.mp h),
    placeCommand_x .., placeCommand_pc ..⟩

theorem exec_li (s : State) (rd : SlotIdx) (imm : Word) : exec (.li rd imm) s = .next (complete s rd imm) := rfl

/-- Settles O24: LI reads no slot, so it always completes. -/
theorem liWritesLiteral : Obligations.LiWritesLiteral := exec_li

end Sys2Proof.Machine
end

section
/-! How far a run gets: one command per step, in program order, to one of the two ends (spec/43_host.md R132, R133). -/

namespace Sys2Proof.Machine

/-- A state with no fault recorded and pc inside the program has a step, which completes or raises. -/
theorem step_of_pc_lt {s : State} (hs : s.fault = none) (hpc : s.pc < s.prog.length) :
    (∃ rd v, step s = .next (complete s rd v)) ∨ ∃ w c, step s = .next (raise s w c) := by
  have hfetch : fetch s = .ok s.prog[s.pc] := (fetch_ok s _).mpr ⟨hs, List.getElem?_eq_getElem hpc⟩
  cases hdecode : decode s.prog[s.pc] with
  | error e => exact .inr ⟨_, _, step_of_decode_error s _ e hfetch hdecode⟩
  | ok i =>
    rw [step_of_decode_ok s _ i hfetch hdecode]
    obtain ⟨v, hv⟩ | ⟨c, hc⟩ := exec_cases i s
    · exact .inl ⟨_, v, hv⟩
    · exact .inr ⟨_, c, hc⟩

/-- A run that ends with no fault recorded started with none: a recorded fault has no step. -/
theorem fault_none_of_run {k : Nat} {s t : State} (h : Sys2Proof.core.run k s = .next t) (ht : t.fault = none) :
    s.fault = none := by
  cases k with
  | zero => exact (run_zero s t).mp h ▸ ht
  | succ k =>
    obtain ⟨u, hstep, -⟩ := (run_succ k s t).mp h
    obtain ⟨hs, -⟩ := step_completes_or_raises hstep
    exact hs

/-- Without a fault, each step of a run moves pc on by one. -/
theorem pc_of_run {k : Nat} {s t : State} (h : Sys2Proof.core.run k s = .next t) (ht : t.fault = none) :
    t.pc = s.pc + k := by
  induction k generalizing s with
  | zero => rw [(run_zero s t).mp h, Nat.add_zero]
  | succ k ih =>
    obtain ⟨u, hstep, hrun⟩ := (run_succ k s t).mp h
    obtain ⟨-, hadvance, -⟩ := pcAdvancesByOneOrStays
    have hu : u.pc = s.pc + 1 := hadvance s u hstep (fault_none_of_run hrun ht)
    rw [ih hrun, hu]
    omega

/-- Settles O11: a launch starts at pc 0. -/
theorem commandsRunInProgramOrder : Obligations.CommandsRunInProgramOrder := by
  unfold Obligations.CommandsRunInProgramOrder
  intro prog k t hrun ht
  rw [pc_of_run hrun ht, launch_pc, Nat.zero_add]

/-- With n commands left, a run of at most n steps ends: each step leaves one command fewer, or raises a fault. -/
theorem exists_run_to_end {n : Nat} {s : State} (hs : s.fault = none) (hn : s.pc + n = s.prog.length) :
    ∃ k t, k ≤ n ∧ Sys2Proof.core.run k s = .next t ∧ (EndedNormally t ∨ EndedInFault t) := by
  induction n generalizing s with
  | zero => exact ⟨0, s, le_rfl, (run_zero s s).mpr rfl, .inl ⟨hs, hn⟩⟩
  | succ n ih =>
    obtain ⟨rd, v, hstep⟩ | ⟨w, c, hstep⟩ := step_of_pc_lt hs (by omega)
    · have hleft : (complete s rd v).pc + n = (complete s rd v).prog.length := by
        rw [complete_pc, complete_prog]
        omega
      obtain ⟨k, t, hk, hrun, hend⟩ := ih (s := complete s rd v) hs hleft
      exact ⟨k + 1, t, Nat.succ_le_succ hk, (run_succ k s t).mpr ⟨_, hstep, hrun⟩, hend⟩
    · have hraised : EndedInFault (raise s w c) := nofun
      exact ⟨1, _, Nat.le_add_left 1 n, (run_succ 0 s _).mpr ⟨_, hstep, (run_zero _ _).mpr rfl⟩, .inr hraised⟩

/-- Settles O9: a step needs a state with no fault recorded and pc inside the program, and every such state has one; so
the run of a launched program goes on until it ends, by `exists_run_to_end`. -/
theorem everyRunEndsWithinItsLength : Obligations.EveryRunEndsWithinItsLength := by
  unfold Obligations.EveryRunEndsWithinItsLength
  refine ⟨?endedHasNoStep, ?otherHasStep, fun prog => exists_run_to_end (launch_fault prog) (Nat.zero_add _)⟩
  case endedHasNoStep =>
    intro s hend t hstep
    obtain ⟨hs, hpc, -⟩ := step_completes_or_raises hstep
    obtain ⟨-, hN⟩ | hfault := hend
    · exact hpc.ne hN
    · exact hfault hs
  case otherHasStep =>
    intro s hle hnormal hfault
    have hs : s.fault = none := not_not.mp hfault
    have hpc : s.pc < s.prog.length := hle.lt_of_ne fun hN => hnormal ⟨hs, hN⟩
    obtain ⟨rd, v, hstep⟩ | ⟨w, c, hstep⟩ := step_of_pc_lt hs hpc
    · exact ⟨_, hstep⟩
    · exact ⟨_, hstep⟩

end Sys2Proof.Machine
end

section
/-! A recorded fault ends the run, at the command that raised it (spec/60_exceptions.md R141, R142, R145, R146). -/

namespace Sys2Proof.Machine

/-- A state with a fault recorded has no run but the empty one. -/
theorem run_of_fault {k : Nat} {s t : State} {r : FaultRecord} (hs : s.fault = some r)
    (h : Sys2Proof.core.run k s = .next t) : k = 0 ∧ t = s := by
  cases k with
  | zero => exact ⟨rfl, ((run_zero s t).mp h).symm⟩
  | succ k =>
    obtain ⟨u, hstep, -⟩ := (run_succ k s t).mp h
    obtain ⟨hnone, -⟩ := step_completes_or_raises hstep
    cases hs.symm.trans hnone

/-- Settles O21: a recorded fault has no step, and reset records none. -/
theorem onlyResetClearsFault : Obligations.OnlyResetClearsFault := by
  unfold Obligations.OnlyResetClearsFault
  exact ⟨fun _ _ hs _ _ => run_of_fault hs, resetHarness_fault⟩

/-- A step that answers a state with a fault recorded raised it, with the word at pc. -/
theorem step_raises_of_fault {s t : State} {r : FaultRecord} (h : step s = .next t) (hr : t.fault = some r) :
    ∃ w c, s.prog[s.pc]? = some w ∧ t = raise s w c := by
  obtain ⟨w, hs, hw, ⟨e, -, rfl⟩ | ⟨i, hdecode, -, ⟨v, rfl⟩ | ⟨c, rfl⟩⟩⟩ := step_next_cases s t h
  · exact ⟨w, _, hw, rfl⟩
  · cases hr.symm.trans hs
  · exact ⟨encode i, c, encode_of_decode hdecode ▸ hw, rfl⟩

/-- A run that starts with no fault and ends with one has a step for each command before the record's pc, and one for
the command there. -/
theorem run_length_of_fault {k : Nat} {s t : State} {r : FaultRecord} (hs : s.fault = none)
    (h : Sys2Proof.core.run k s = .next t) (hr : t.fault = some r) : s.pc + k = r.pc + 1 ∧ t.pc = r.pc := by
  induction k generalizing s with
  | zero =>
    obtain rfl := (run_zero s t).mp h
    cases hs.symm.trans hr
  | succ k ih =>
    obtain ⟨u, hstep, hrun⟩ := (run_succ k s t).mp h
    obtain ⟨-, -, ⟨rd, v, rfl⟩ | ⟨w, c, rfl⟩⟩ := step_completes_or_raises hstep
    · obtain ⟨hlen, hpc⟩ := ih (s := complete s rd v) hs hrun
      rw [complete_pc] at hlen
      exact ⟨by omega, hpc⟩
    · obtain ⟨rfl, rfl⟩ := run_of_fault (raise_fault s w c) hrun
      obtain rfl := Option.some.inj hr
      exact ⟨rfl, rfl⟩

/-- Settles O20: the faulting step is a raise, and every step of a launched run before it is a completion. -/
theorem faultsArePrecise : Obligations.FaultsArePrecise := by
  unfold Obligations.FaultsArePrecise
  refine ⟨?step, ?run⟩
  case step =>
    intro s t r hstep hr
    obtain ⟨w, c, hw, rfl⟩ := step_raises_of_fault hstep hr
    obtain rfl := Option.some.inj hr
    exact ⟨rfl, rfl, rfl, rfl, hw⟩
  case run =>
    intro prog k t r hrun hr
    obtain ⟨hlen, hpc⟩ := run_length_of_fault (launch_fault prog) hrun hr
    rw [launch_pc, Nat.zero_add] at hlen
    exact ⟨hlen, hpc⟩

end Sys2Proof.Machine
end

section
/-! The reading of a command's sources (spec/43_host.md R131): in operand order, up to the first one unwritten
(spec/60_exceptions.md R144), and only then the rule. -/

namespace Sys2Proof.Machine

/-- Reading the slots of a list of source fields in order, and then applying a rule to their words. -/
def readThen (s : State) (rule : List Word → Except Cause Word) : List (SrcField × SlotIdx) → Except Cause Word
  | [] => rule []
  | p :: ps => (readSlot s p.1 p.2).bind fun a => readThen s (fun as => rule (a :: as)) ps

/-- The cause is F_UNWRITTEN_SLOT for one of the source fields. -/
def UnwrittenAmong (s : State) (ps : List (SrcField × SlotIdx)) (c : Cause) : Prop :=
  ∃ p ∈ ps, s.x[p.2] = .unwritten ∧ c = ⟨.unwrittenSlot, some p.1, none⟩

section Reads
variable {s : State} {w : CmdWord} {rd rs1 rs2 rs3 : SlotIdx} {c : Cause}

theorem unary_eq_readThen (s : State) (w : CmdWord) (rd rs1 : SlotIdx) (rule : Word → Except Cause Word) :
    unary s w rd rs1 rule = finish s w rd (readThen s (fun as => rule as[0]!) [(.rs1, rs1)]) := rfl

theorem binary_eq_readThen (s : State) (w : CmdWord) (rd rs1 rs2 : SlotIdx) (rule : Word → Word → Except Cause Word) :
    binary s w rd rs1 rs2 rule =
      finish s w rd (readThen s (fun as => rule as[0]! as[1]!) [(.rs1, rs1), (.rs2, rs2)]) := rfl

theorem ternary_eq_readThen (s : State) (w : CmdWord) (rd rs1 rs2 rs3 : SlotIdx)
    (rule : Word → Word → Word → Except Cause Word) :
    ternary s w rd rs1 rs2 rs3 rule =
      finish s w rd (readThen s (fun as => rule as[0]! as[1]! as[2]!) [(.rs1, rs1), (.rs2, rs2), (.rs3, rs3)]) := rfl

/-- Every command reads its sources in order and then applies a rule of its own. -/
theorem exec_eq_readThen (i : Instr) (s : State) :
    ∃ rule, exec i s = finish s (encode i) (destination i) (readThen s rule (sources i)) := by
  cases i with
  | li rd imm => exact ⟨fun _ => .ok imm, rfl⟩
  | newStd => exact ⟨_, unary_eq_readThen ..⟩
  | newExt => exact ⟨_, unary_eq_readThen ..⟩
  | fromReg => exact ⟨_, ternary_eq_readThen ..⟩
  | withRtr => exact ⟨_, binary_eq_readThen ..⟩
  | toId => exact ⟨_, unary_eq_readThen ..⟩
  | isExt => exact ⟨_, unary_eq_readThen ..⟩
  | isStd => exact ⟨_, unary_eq_readThen ..⟩
  | isRtr => exact ⟨_, unary_eq_readThen ..⟩
  | rawId => exact ⟨_, unary_eq_readThen ..⟩
  | idType => exact ⟨_, unary_eq_readThen ..⟩
  | frameKind => exact ⟨_, unary_eq_readThen ..⟩
  | cmp => exact ⟨_, binary_eq_readThen ..⟩

/-- The first unwritten source gives the cause, whatever the rule and whatever stands after it. -/
theorem readThen_first_unwritten {rule : List Word → Except Cause Word} {before after : List (SrcField × SlotIdx)}
    {f : SrcField} {n : SlotIdx} (hbefore : ∀ p ∈ before, s.x[p.2] ≠ .unwritten) (hn : s.x[n] = .unwritten) :
    readThen s rule (before ++ (f, n) :: after) = .error ⟨.unwrittenSlot, some f, none⟩ := by
  induction before generalizing rule with
  | nil =>
    rw [List.nil_append, readThen, readSlot_unwritten s f n hn]
    rfl
  | cons p ps ih =>
    obtain ⟨hp, hps⟩ := List.forall_mem_cons.mp hbefore
    obtain ⟨a, -, hread⟩ | ⟨hunwritten, -⟩ := readSlot_cases s p.1 p.2
    · rw [List.cons_append, readThen, hread]
      exact ih hps
    · exact absurd hunwritten hp

/-- A cause is that of an unwritten source, or the rule gives it on the words that the sources hold. -/
theorem readThen_eq_error {rule : List Word → Except Cause Word} {ps : List (SrcField × SlotIdx)}
    (h : readThen s rule ps = .error c) :
    UnwrittenAmong s ps c ∨ ∃ as, List.Forall₂ (fun p a => s.x[p.2] = .written a) ps as ∧ rule as = .error c := by
  induction ps generalizing rule with
  | nil => exact .inr ⟨[], .nil, h⟩
  | cons p ps ih =>
    rw [readThen] at h
    obtain ⟨a, ha, hread⟩ | ⟨hunwritten, hread⟩ := readSlot_cases s p.1 p.2
    · rw [hread] at h
      obtain ⟨q, hq, hcause⟩ | ⟨as, has, hrule⟩ := ih h
      · exact .inl ⟨q, .tail p hq, hcause⟩
      · exact .inr ⟨a :: as, .cons ha has, hrule⟩
    · rw [hread] at h
      exact .inl ⟨p, .head ps, hunwritten, (Except.error.inj h).symm⟩

/-- A command that ends in a raise has that cause as its outcome: a completion moves pc, and a record shows its
cause. -/
theorem finish_eq_raise {e : Except Cause Word} (h : finish s w rd e = .next (raise s w c)) : e = .error c := by
  cases e with
  | ok v =>
    have hpc : s.pc + 1 = s.pc := congrArg State.pc (Host.Outcome.next.inj h)
    omega
  | error c' =>
    have hrecord := Option.some.inj (congrArg State.fault (Host.Outcome.next.inj h))
    cases c
    cases c'
    cases hrecord
    rfl

theorem unary_eq_raise {rule : Word → Except Cause Word} (h : unary s w rd rs1 rule = .next (raise s w c)) :
    UnwrittenAmong s [(.rs1, rs1)] c ∨ ∃ a, s.x[rs1] = .written a ∧ rule a = .error c := by
  obtain hunwritten | ⟨as, _ | ⟨ha, _ | _⟩, hrule⟩ := readThen_eq_error (finish_eq_raise (unary_eq_readThen .. ▸ h))
  · exact .inl hunwritten
  · exact .inr ⟨_, ha, hrule⟩

theorem binary_eq_raise {rule : Word → Word → Except Cause Word}
    (h : binary s w rd rs1 rs2 rule = .next (raise s w c)) :
    UnwrittenAmong s [(.rs1, rs1), (.rs2, rs2)] c ∨
      ∃ a b, s.x[rs1] = .written a ∧ s.x[rs2] = .written b ∧ rule a b = .error c := by
  obtain hunwritten | ⟨as, _ | ⟨ha, _ | ⟨hb, _ | _⟩⟩, hrule⟩ :=
    readThen_eq_error (finish_eq_raise (binary_eq_readThen .. ▸ h))
  · exact .inl hunwritten
  · exact .inr ⟨_, _, ha, hb, hrule⟩

theorem ternary_eq_raise {rule : Word → Word → Word → Except Cause Word}
    (h : ternary s w rd rs1 rs2 rs3 rule = .next (raise s w c)) :
    UnwrittenAmong s [(.rs1, rs1), (.rs2, rs2), (.rs3, rs3)] c ∨
      ∃ a b d, s.x[rs1] = .written a ∧ s.x[rs2] = .written b ∧ s.x[rs3] = .written d ∧ rule a b d = .error c := by
  obtain hunwritten | ⟨as, _ | ⟨ha, _ | ⟨hb, _ | ⟨hd, _ | _⟩⟩⟩, hrule⟩ :=
    readThen_eq_error (finish_eq_raise (ternary_eq_readThen .. ▸ h))
  · exact .inl hunwritten
  · exact .inr ⟨_, _, _, ha, hb, hd, hrule⟩

/-- A query has no cause but an unwritten source. -/
theorem unary_total_eq_raise {f : Word → Word}
    (h : unary s w rd rs1 (fun a => .ok (f a)) = .next (raise s w c)) : UnwrittenAmong s [(.rs1, rs1)] c := by
  obtain hunwritten | ⟨a, -, hrule⟩ := unary_eq_raise h
  · exact hunwritten
  · cases hrule

end Reads

/-- An illegal word at pc raises F_ILLEGAL_COMMAND, whatever the slots hold. -/
theorem step_of_illegal_word {s : State} {w : CmdWord} {e : Illegal} (hs : s.fault = none)
    (hw : s.prog[s.pc]? = some w) (hd : decode w = .error e) :
    step s = .next { s with fault := some ⟨.illegalCommand, s.pc, w, none, none⟩ } :=
  step_of_decode_error s w e ((fetch_ok s w).mpr ⟨hs, hw⟩) hd

/-- Settles O23. Sources are read in order before the rule, `readThen_first_unwritten`; the order of ID.FROM_REG's value
checks is that of O27. -/
theorem firstFaultInPriorityOrderIsReported : Obligations.FirstFaultInPriorityOrderIsReported := by
  unfold Obligations.FirstFaultInPriorityOrderIsReported
  refine ⟨fun _ _ _ => step_of_illegal_word, ?unwritten, ?values⟩
  case unwritten =>
    intro i s before after f n hsources hbefore hn
    obtain ⟨rule, hexec⟩ := exec_eq_readThen i s
    rw [hexec, hsources, readThen_first_unwritten hbefore hn]
    rfl
  case values =>
    intro s rd rs1 rs2 rs3 raw k t hraw hk ht
    obtain ⟨hwritten, -⟩ := fromRegCombinesRawBitsAndFlags s rd rs1 rs2 rs3
    obtain ⟨-, hchecks⟩ := hwritten raw k t hraw hk ht
    exact hchecks

end Sys2Proof.Machine
end

section
/-! Which command raises which cause (spec/60_exceptions.md R143). -/

namespace Sys2Proof.Machine

/-- R143's table: the causes that a command can raise in a state, each with its field and value. -/
inductive Raises (s : State) : Instr → Cause → Prop where
  | unwrittenSlot {i : Instr} {c : Cause} : UnwrittenAmong s (sources i) c → Raises s i c
  | stdRange {rd rs1 : SlotIdx} {v : Word} : s.x[rs1] = .written v → 0x7FF#32 < v →
      Raises s (.newStd rd rs1) ⟨.stdRange, some .rs1, some v⟩
  | extRange {rd rs1 : SlotIdx} {v : Word} : s.x[rs1] = .written v → 0x1FFFFFFF#32 < v →
      Raises s (.newExt rd rs1) ⟨.extRange, some .rs1, some v⟩
  | rawRange {rd rs1 rs2 rs3 : SlotIdx} {v : Word} : s.x[rs1] = .written v → v.extractLsb' 29 3 ≠ 0 →
      Raises s (.fromReg rd rs1 rs2 rs3) ⟨.rawRange, some .rs1, some v⟩
  | kindTag {rd rs1 rs2 rs3 : SlotIdx} {v : Word} : s.x[rs2] = .written v → v ≠ 0 → v ≠ 1 →
      Raises s (.fromReg rd rs1 rs2 rs3) ⟨.tagValue, some .rs2, some v⟩
  | typeTag {rd rs1 rs2 rs3 : SlotIdx} {v : Word} : s.x[rs3] = .written v → v ≠ 0 → v ≠ 1 →
      Raises s (.fromReg rd rs1 rs2 rs3) ⟨.tagValue, some .rs3, some v⟩
  | boolTag {rd rs1 rs2 : SlotIdx} {v : Word} : s.x[rs2] = .written v → v ≠ 0 → v ≠ 1 →
      Raises s (.withRtr rd rs1 rs2) ⟨.tagValue, some .rs2, some v⟩

section Errors
variable {α β : Type} {c : Cause} {f : SrcField} {v : Word}

theorem bind_eq_error {e : Except Cause α} {g : α → Except Cause β} (h : e.bind g = .error c) :
    e = .error c ∨ ∃ a, g a = .error c := by
  cases e with
  | ok a => exact .inr ⟨a, h⟩
  | error c' => exact .inl (congrArg Except.error (Except.error.inj h))

theorem map_eq_error {e : Except Cause α} {g : α → β} (h : e.map g = .error c) : e = .error c := by
  cases e with
  | ok a => cases h
  | error c' => exact congrArg Except.error (Except.error.inj h)

theorem stdIdOperand_eq_error (h : stdIdOperand f v = .error c) : 0x7FF#32 < v ∧ c = ⟨.stdRange, some f, some v⟩ := by
  by_cases hle : v ≤ 0x7FF#32
  · cases (stdIdOperand_of_le f v hle).symm.trans h
  · have hlt := BitVec.not_le.mp hle
    exact ⟨hlt, Except.error.inj (h.symm.trans (stdIdOperand_of_lt f v hlt))⟩

theorem extIdOperand_eq_error (h : extIdOperand f v = .error c) :
    0x1FFFFFFF#32 < v ∧ c = ⟨.extRange, some f, some v⟩ := by
  by_cases hle : v ≤ 0x1FFFFFFF#32
  · cases (extIdOperand_of_le f v hle).symm.trans h
  · have hlt := BitVec.not_le.mp hle
    exact ⟨hlt, Except.error.inj (h.symm.trans (extIdOperand_of_lt f v hlt))⟩

theorem rawIdOperand_eq_error (h : rawIdOperand f v = .error c) :
    v.extractLsb' 29 3 ≠ 0 ∧ c = ⟨.rawRange, some f, some v⟩ := by
  by_cases hzero : v.extractLsb' 29 3 = 0
  · cases (rawIdOperand_of_zero f v hzero).symm.trans h
  · exact ⟨hzero, Except.error.inj (h.symm.trans (rawIdOperand_of_ne f v hzero))⟩

/-- A check that accepts the words 0 and 1 refuses a word only as F_TAG_VALUE. -/
theorem tag_of_eq_error {check : Except Cause α} {a b : α}
    (hcheck : (v = 0 ∧ check = .ok a) ∨ (v = 1 ∧ check = .ok b) ∨
      (v ≠ 0 ∧ v ≠ 1 ∧ check = .error ⟨.tagValue, some f, some v⟩))
    (h : check = .error c) : v ≠ 0 ∧ v ≠ 1 ∧ c = ⟨.tagValue, some f, some v⟩ := by
  obtain ⟨-, hok⟩ | ⟨-, hok⟩ | ⟨h0, h1, herror⟩ := hcheck
  · cases hok.symm.trans h
  · cases hok.symm.trans h
  · exact ⟨h0, h1, Except.error.inj (h.symm.trans herror)⟩

end Errors

/-- A command raises only the causes of R143's table. -/
theorem raises_of_exec {i : Instr} {s : State} {c : Cause} (h : exec i s = .next (raise s (encode i) c)) :
    Raises s i c := by
  cases i with
  | li rd imm =>
    have hpc : s.pc + 1 = s.pc := congrArg State.pc (Host.Outcome.next.inj h)
    omega
  | newStd =>
    obtain hunwritten | ⟨v, hv, hrule⟩ := unary_eq_raise h
    · exact .unwrittenSlot hunwritten
    · obtain ⟨hlt, rfl⟩ := stdIdOperand_eq_error (map_eq_error hrule)
      exact .stdRange hv hlt
  | newExt =>
    obtain hunwritten | ⟨v, hv, hrule⟩ := unary_eq_raise h
    · exact .unwrittenSlot hunwritten
    · obtain ⟨hlt, rfl⟩ := extIdOperand_eq_error (map_eq_error hrule)
      exact .extRange hv hlt
  | fromReg =>
    obtain hunwritten | ⟨v, k, t, hv, hk, ht, hrule⟩ := ternary_eq_raise h
    · exact .unwrittenSlot hunwritten
    obtain hraw | ⟨raw, hrule⟩ := bind_eq_error hrule
    · obtain ⟨hne, rfl⟩ := rawIdOperand_eq_error hraw
      exact .rawRange hv hne
    obtain hkind | ⟨kind, hrule⟩ := bind_eq_error hrule
    · obtain ⟨h0, h1, rfl⟩ := tag_of_eq_error (frameKindOperand_cases .rs2 k) hkind
      exact .kindTag hk h0 h1
    · obtain ⟨h0, h1, rfl⟩ := tag_of_eq_error (idTypeOperand_cases .rs3 t) (map_eq_error hrule)
      exact .typeTag ht h0 h1
  | withRtr =>
    obtain hunwritten | ⟨v, b, -, hb, hrule⟩ := binary_eq_raise h
    · exact .unwrittenSlot hunwritten
    · obtain ⟨h0, h1, rfl⟩ := tag_of_eq_error (boolOperand_cases .rs2 b) (map_eq_error hrule)
      exact .boolTag hb h0 h1
  | toId => exact .unwrittenSlot (unary_total_eq_raise h)
  | isExt => exact .unwrittenSlot (unary_total_eq_raise h)
  | isStd => exact .unwrittenSlot (unary_total_eq_raise h)
  | isRtr => exact .unwrittenSlot (unary_total_eq_raise h)
  | rawId => exact .unwrittenSlot (unary_total_eq_raise h)
  | idType => exact .unwrittenSlot (unary_total_eq_raise h)
  | frameKind => exact .unwrittenSlot (unary_total_eq_raise h)
  | cmp =>
    obtain hunwritten | ⟨a, b, -, -, hrule⟩ := binary_eq_raise h
    · exact .unwrittenSlot hunwritten
    · cases hrule

/-- Settles O22: a command that records a fault raised a cause, and `raises_of_exec` says which. -/
theorem faultCodesFollowTheirTable : Obligations.FaultCodesFollowTheirTable := by
  unfold Obligations.FaultCodesFollowTheirTable
  refine ⟨⟨rfl, rfl, rfl, rfl, rfl, rfl⟩, fun _ _ _ => step_of_illegal_word, ?commands⟩
  intro i s t r hs ht hr
  obtain ⟨v, hv⟩ | ⟨c, hc⟩ := exec_cases i s
  · obtain rfl : t = complete s (destination i) v := Host.Outcome.next.inj (ht.symm.trans hv)
    cases hr.symm.trans hs
  · obtain rfl : t = raise s (encode i) c := Host.Outcome.next.inj (ht.symm.trans hc)
    obtain rfl := Option.some.inj hr
    cases raises_of_exec hc with
    | unwrittenSlot h =>
      obtain ⟨p, hp, hunwritten, rfl⟩ := h
      exact ⟨p, hp, hunwritten, rfl, rfl⟩
    | stdRange hv hlt => exact ⟨_, _, _, rfl, hv, hlt, rfl, rfl⟩
    | extRange hv hlt => exact ⟨_, _, _, rfl, hv, hlt, rfl, rfl⟩
    | rawRange hv hne => exact ⟨_, _, _, _, _, rfl, hv, hne, rfl, rfl⟩
    | kindTag hv h0 h1 => exact .inl ⟨_, _, _, _, _, rfl, .inl ⟨hv, rfl⟩, h0, h1, rfl⟩
    | typeTag hv h0 h1 => exact .inl ⟨_, _, _, _, _, rfl, .inr ⟨hv, rfl⟩, h0, h1, rfl⟩
    | boolTag hv h0 h1 => exact .inr ⟨_, _, _, _, rfl, hv, rfl, h0, h1, rfl⟩

end Sys2Proof.Machine
end

section
/-! The state after reset and launch (spec/70_reset_and_hazards.md R160), and where the words in the slots of a launched
run come from (R161). -/

namespace Sys2Proof.Machine

theorem reset_slot (n : SlotIdx) : State.reset.x[n] = .unwritten := by simp

theorem wf_of_pc_zero {s : State} (hpc : s.pc = 0) (hs : s.fault = none) : s.wf :=
  ⟨hpc ▸ Nat.zero_le _, fun _ hr => absurd (hs.symm.trans hr) nofun⟩

/-- Settles O14: pc is 0, and with no record there is nothing to check. -/
theorem resetMeetsHarnessInvariant : Obligations.ResetMeetsHarnessInvariant := by
  unfold Obligations.ResetMeetsHarnessInvariant
  exact ⟨wf_of_pc_zero reset_pc reset_fault, fun prog => wf_of_pc_zero (launch_pc prog) (launch_fault prog),
    fun s => wf_of_pc_zero (resetHarness_pc s) (resetHarness_fault s)⟩

/-- Settles O15: a launch and a reset have the slots of `State.reset`. -/
theorem resetLeavesSlotsUnwritten : Obligations.ResetLeavesSlotsUnwritten := by
  unfold Obligations.ResetLeavesSlotsUnwritten
  exact ⟨reset_slot, reset_pc, reset_fault,
    fun prog n => ⟨reset_slot n, launch_pc prog, launch_fault prog, launch_prog prog⟩,
    fun s n => ⟨reset_slot n, resetHarness_pc s, resetHarness_fault s, resetHarness_prog s⟩⟩

/-- A command of the program before index m has slot n as its destination. -/
def WriterBefore (prog : List CmdWord) (m : Nat) (n : SlotIdx) : Prop :=
  ∃ (j : Nat) (w : CmdWord) (i : Instr), j < m ∧ prog[j]? = some w ∧ decode w = .ok i ∧ destination i = n

theorem WriterBefore.mono {prog : List CmdWord} {m m' : Nat} {n : SlotIdx} (h : WriterBefore prog m n)
    (hm : m ≤ m') : WriterBefore prog m' n := by
  obtain ⟨j, w, i, hj, hwriter⟩ := h
  exact ⟨j, w, i, hj.trans_le hm, hwriter⟩

/-- Every slot that holds a word is the destination of a command before pc. -/
def SlotsHaveWriters (s : State) : Prop :=
  ∀ (n : SlotIdx) (v : Word), s.x[n] = .written v → WriterBefore s.prog s.pc n

theorem slotsHaveWriters_launch (prog : List CmdWord) : SlotsHaveWriters (launch prog) :=
  fun n _ hv => absurd ((reset_slot n).symm.trans hv) nofun

/-- A raise leaves the slots and pc as they were; a completion writes the destination of the command at pc, which is
then before pc. -/
theorem step_keeps_slotsHaveWriters (s t : State) (hs : SlotsHaveWriters s) (h : step s = .next t) :
    SlotsHaveWriters t := by
  obtain ⟨w, -, hw, ⟨e, -, rfl⟩ | ⟨i, hdecode, -, ⟨v, rfl⟩ | ⟨c, rfl⟩⟩⟩ := step_next_cases s t h
  · exact hs
  · intro n u hu
    by_cases hn : n = destination i
    · exact ⟨s.pc, w, i, Nat.lt_succ_self _, hw, hdecode, hn.symm⟩
    · rw [complete_slot_other s _ n v hn] at hu
      exact (hs n u hu).mono (Nat.le_succ _)
  · exact hs

/-- Settles O16: a launch has no written slot, every step keeps `SlotsHaveWriters`, and a run keeps the program. -/
theorem writtenSlotWasWrittenByEarlierCommand : Obligations.WrittenSlotWasWrittenByEarlierCommand := by
  unfold Obligations.WrittenSlotWasWrittenByEarlierCommand
  intro prog k t n v hrun hv
  have hwriters := run_induction SlotsHaveWriters step_keeps_slotsHaveWriters k _ t (slotsHaveWriters_launch prog) hrun
  have hprog : t.prog = prog := run_keeps_prog hrun
  exact hprog ▸ hwriters n v hv

end Sys2Proof.Machine
end
